-- ==== Sys2Proof/Word.lean ====
section
/-! DEFINITION. The words of the machine: 8-bit bytes, 16-bit words, 4-bit register numbers
(spec/00_scope.md R6, R7; spec/10_state.md R11). All values are unsigned. -/

namespace Sys2Proof

/-- An 8-bit value: a general register, a timer, a byte of memory (00_scope.md R6, VLEN and TLEN). -/
abbrev Byte := BitVec 8

/-- A 16-bit value: I, PC, a stack entry, an opcode (00_scope.md R6, ILEN, PCLEN, RALEN). -/
abbrev Word := BitVec 16

/-- The 12-bit address immediate `nnn` (30_encoding.md R62). -/
abbrev Imm12 := BitVec 12

/-- The number of a general register, V0 to VF (10_state.md R11). -/
abbrev Reg := Fin 16

/-- VF, `V[15]`, the register that also receives the flags (10_state.md R13). -/
abbrev Reg.vF : Reg := 15

/-- V0, the register Bnnn adds to its target (10_state.md R11). -/
abbrev Reg.v0 : Reg := 0

end Sys2Proof
end

