-- ==== Sys2Proof/Syntax.lean ====
section
/-! DEFINITION. The 34 instructions, one constructor for each row of spec/opcode_table.json
(spec/30_encoding.md R64), in the table's order. -/

namespace Sys2Proof

/-- An instruction with its operands (30_encoding.md R62, R63). The `y` of `shrVx` and `shlVx` is
the decoded and ignored field of R67. The sprite height `n` of `drwVxVyN` is a count, 0 to 15. -/
inductive Instr where
  /-- 00E0 CLS (43_display.md R140). -/
  | cls
  /-- 00EE RET (40_flow.md R80). -/
  | ret
  /-- 1nnn JP nnn (40_flow.md R81). -/
  | jpNnn (nnn : Imm12)
  /-- 2nnn CALL nnn (40_flow.md R82). -/
  | callNnn (nnn : Imm12)
  /-- 3xkk SE Vx, kk (40_flow.md R85). -/
  | seVxKk (x : Reg) (kk : Byte)
  /-- 4xkk SNE Vx, kk (40_flow.md R86). -/
  | sneVxKk (x : Reg) (kk : Byte)
  /-- 5xy0 SE Vx, Vy (40_flow.md R87). -/
  | seVxVy (x y : Reg)
  /-- 6xkk LD Vx, kk (41_alu.md R101). -/
  | ldVxKk (x : Reg) (kk : Byte)
  /-- 7xkk ADD Vx, kk (41_alu.md R102). -/
  | addVxKk (x : Reg) (kk : Byte)
  /-- 8xy0 LD Vx, Vy (41_alu.md R103). -/
  | ldVxVy (x y : Reg)
  /-- 8xy1 OR Vx, Vy (41_alu.md R104). -/
  | orVxVy (x y : Reg)
  /-- 8xy2 AND Vx, Vy (41_alu.md R105). -/
  | andVxVy (x y : Reg)
  /-- 8xy3 XOR Vx, Vy (41_alu.md R106). -/
  | xorVxVy (x y : Reg)
  /-- 8xy4 ADD Vx, Vy (41_alu.md R107). -/
  | addVxVy (x y : Reg)
  /-- 8xy5 SUB Vx, Vy (41_alu.md R108). -/
  | subVxVy (x y : Reg)
  /-- 8xy6 SHR Vx (41_alu.md R109). -/
  | shrVx (x y : Reg)
  /-- 8xy7 SUBN Vx, Vy (41_alu.md R110). -/
  | subnVxVy (x y : Reg)
  /-- 8xyE SHL Vx (41_alu.md R111). -/
  | shlVx (x y : Reg)
  /-- 9xy0 SNE Vx, Vy (40_flow.md R88). -/
  | sneVxVy (x y : Reg)
  /-- Annn LD I, nnn (42_index_memory.md R122). -/
  | ldINnn (nnn : Imm12)
  /-- Bnnn JP V0, nnn (40_flow.md R84). -/
  | jpV0Nnn (nnn : Imm12)
  /-- Cxkk RND Vx, kk (41_alu.md R114). -/
  | rndVxKk (x : Reg) (kk : Byte)
  /-- Dxyn DRW Vx, Vy, n (43_display.md R141). -/
  | drwVxVyN (x y : Reg) (n : Nat)
  /-- Ex9E SKP Vx (44_keypad_timers.md R150). -/
  | skpVx (x : Reg)
  /-- ExA1 SKNP Vx (44_keypad_timers.md R151). -/
  | sknpVx (x : Reg)
  /-- Fx07 LD Vx, DT (44_keypad_timers.md R155). -/
  | ldVxDt (x : Reg)
  /-- Fx0A LD Vx, K (44_keypad_timers.md R153). -/
  | ldVxK (x : Reg)
  /-- Fx15 LD DT, Vx (44_keypad_timers.md R156). -/
  | ldDtVx (x : Reg)
  /-- Fx18 LD ST, Vx (44_keypad_timers.md R157). -/
  | ldStVx (x : Reg)
  /-- Fx1E ADD I, Vx (42_index_memory.md R123). -/
  | addIVx (x : Reg)
  /-- Fx29 LD F, Vx (42_index_memory.md R124). -/
  | ldFVx (x : Reg)
  /-- Fx33 LD B, Vx (42_index_memory.md R126). -/
  | ldBVx (x : Reg)
  /-- Fx55 LD [I], Vx (42_index_memory.md R128). -/
  | ldMemVx (x : Reg)
  /-- Fx65 LD Vx, [I] (42_index_memory.md R129). -/
  | ldVxMem (x : Reg)
  deriving DecidableEq, Repr

end Sys2Proof
end

