-- ==== Sys2Proof/WellFormed.lean ====
section
/-! DEFINITION. Which instructions the encoding admits. Register numbers, `kk` and `nnn` are in
range by their types; the one count held as a natural number is the sprite height of Dxyn, which
is the 4-bit field `n`, 0 to 15 (spec/30_encoding.md R62, R63). -/

namespace Sys2Proof

/-- The instruction has an encoding: its sprite height fits the field `n` (30_encoding.md R63). -/
def Instr.wellFormed : Instr → Bool
  | .drwVxVyN _ _ n => decide (n ≤ 15)
  | .cls | .ret | .jpNnn _ | .callNnn _ | .seVxKk _ _ | .sneVxKk _ _ | .seVxVy _ _
  | .ldVxKk _ _ | .addVxKk _ _ | .ldVxVy _ _ | .orVxVy _ _ | .andVxVy _ _ | .xorVxVy _ _
  | .addVxVy _ _ | .subVxVy _ _ | .shrVx _ _ | .subnVxVy _ _ | .shlVx _ _ | .sneVxVy _ _
  | .ldINnn _ | .jpV0Nnn _ | .rndVxKk _ _ | .skpVx _ | .sknpVx _ | .ldVxDt _ | .ldVxK _
  | .ldDtVx _ | .ldStVx _ | .addIVx _ | .ldFVx _ | .ldBVx _ | .ldMemVx _ | .ldVxMem _ => true

end Sys2Proof
end

