-- ==== Sys2Proof/Decode.lean ====
section
/-! DEFINITION. Decoding (spec/30_encoding.md R61 to R67): the fields of an opcode, the total
decoder that rejects illegal words by the family they lie in, the encoder, the opcode table as
masks and matches, and the byte order of an instruction word (spec/20_memory.md R42). -/

namespace Sys2Proof

/-! ### Byte order -/

/-- The big-endian word of two bytes, the byte at the lower address first (20_memory.md R42). -/
def wordOfBytes (hi lo : Byte) : Word := BitVec.ofNat 16 (hi.toNat * 256 + lo.toNat)

/-- Bits 15..8 of a word: the byte at the lower address (20_memory.md R42). -/
def highByte (w : Word) : Byte := BitVec.ofNat 8 (w.toNat / 256)

/-- Bits 7..0 of a word: the byte at the higher address (20_memory.md R42). -/
def lowByte (w : Word) : Byte := BitVec.ofNat 8 w.toNat

/-! ### Fields (30_encoding.md R62) -/

/-- `op`, bits 15:12. -/
def fieldOp (w : Word) : Nat := w.toNat / 4096

/-- `x`, bits 11:8. -/
def fieldX (w : Word) : Reg := ⟨w.toNat / 256 % 16, Nat.mod_lt _ (by decide)⟩

/-- `y`, bits 7:4. -/
def fieldY (w : Word) : Reg := ⟨w.toNat / 16 % 16, Nat.mod_lt _ (by decide)⟩

/-- `n`, bits 3:0. -/
def fieldN (w : Word) : Nat := w.toNat % 16

/-- `kk`, bits 7:0, as the immediate byte. -/
def fieldKk (w : Word) : Byte := BitVec.ofNat 8 w.toNat

/-- `kk`, bits 7:0, as the function selector of the E and F families. -/
def selKk (w : Word) : Nat := w.toNat % 256

/-- `nnn`, bits 11:0. -/
def fieldNnn (w : Word) : Imm12 := BitVec.ofNat 12 w.toNat

/-! ### The decoder -/

/-- Why a word or a byte string is no instruction: the family of illegal words of 30_encoding.md
R66 it lies in, or too few bytes for a word. -/
inductive DecodeError where
  /-- 0x0nnn other than 0x00E0 and 0x00EE. -/
  | illegalFamily0 (w : Word)
  /-- 0x5xyN with N not 0. -/
  | illegalFamily5 (w : Word)
  /-- 0x8xyN with N in 8, 9, A, B, C, D, F. -/
  | illegalFamily8 (w : Word)
  /-- 0x9xyN with N not 0. -/
  | illegalFamily9 (w : Word)
  /-- 0xExKK with KK not 9E and not A1. -/
  | illegalFamilyE (w : Word)
  /-- 0xFxKK with KK none of the nine selectors. -/
  | illegalFamilyF (w : Word)
  /-- Fewer than two bytes. -/
  | truncated
  deriving DecidableEq, Repr

/-- Family 0 matches all 16 bits (30_encoding.md R65, decision D15). -/
def decodeFamily0 (w : Word) : Except DecodeError Instr :=
  if w = 0x00E0 then .ok .cls
  else if w = 0x00EE then .ok .ret
  else .error (.illegalFamily0 w)

/-- Family 5 requires the low nibble 0 (30_encoding.md R65, conflict C4). -/
def decodeFamily5 (w : Word) : Except DecodeError Instr :=
  if fieldN w = 0 then .ok (.seVxVy (fieldX w) (fieldY w)) else .error (.illegalFamily5 w)

/-- Family 8 dispatches on the low nibble (30_encoding.md R65). -/
def decodeFamily8 (w : Word) : Except DecodeError Instr :=
  match fieldN w with
  | 0 => .ok (.ldVxVy (fieldX w) (fieldY w))
  | 1 => .ok (.orVxVy (fieldX w) (fieldY w))
  | 2 => .ok (.andVxVy (fieldX w) (fieldY w))
  | 3 => .ok (.xorVxVy (fieldX w) (fieldY w))
  | 4 => .ok (.addVxVy (fieldX w) (fieldY w))
  | 5 => .ok (.subVxVy (fieldX w) (fieldY w))
  | 6 => .ok (.shrVx (fieldX w) (fieldY w))
  | 7 => .ok (.subnVxVy (fieldX w) (fieldY w))
  | 14 => .ok (.shlVx (fieldX w) (fieldY w))
  | _ => .error (.illegalFamily8 w)

/-- Family 9 requires the low nibble 0 (30_encoding.md R65, conflict C4). -/
def decodeFamily9 (w : Word) : Except DecodeError Instr :=
  if fieldN w = 0 then .ok (.sneVxVy (fieldX w) (fieldY w)) else .error (.illegalFamily9 w)

/-- Family E dispatches on the low byte (30_encoding.md R65). -/
def decodeFamilyE (w : Word) : Except DecodeError Instr :=
  if selKk w = 0x9E then .ok (.skpVx (fieldX w))
  else if selKk w = 0xA1 then .ok (.sknpVx (fieldX w))
  else .error (.illegalFamilyE w)

/-- Family F dispatches on the low byte (30_encoding.md R65). -/
def decodeFamilyF (w : Word) : Except DecodeError Instr :=
  if selKk w = 0x07 then .ok (.ldVxDt (fieldX w))
  else if selKk w = 0x0A then .ok (.ldVxK (fieldX w))
  else if selKk w = 0x15 then .ok (.ldDtVx (fieldX w))
  else if selKk w = 0x18 then .ok (.ldStVx (fieldX w))
  else if selKk w = 0x1E then .ok (.addIVx (fieldX w))
  else if selKk w = 0x29 then .ok (.ldFVx (fieldX w))
  else if selKk w = 0x33 then .ok (.ldBVx (fieldX w))
  else if selKk w = 0x55 then .ok (.ldMemVx (fieldX w))
  else if selKk w = 0x65 then .ok (.ldVxMem (fieldX w))
  else .error (.illegalFamilyF w)

/-- The decode procedure of 30_encoding.md R65: primary dispatch on bits 15:12. `fieldOp` is below
16, so the last arm is family F. -/
def decode (w : Word) : Except DecodeError Instr :=
  match fieldOp w with
  | 0 => decodeFamily0 w
  | 1 => .ok (.jpNnn (fieldNnn w))
  | 2 => .ok (.callNnn (fieldNnn w))
  | 3 => .ok (.seVxKk (fieldX w) (fieldKk w))
  | 4 => .ok (.sneVxKk (fieldX w) (fieldKk w))
  | 5 => decodeFamily5 w
  | 6 => .ok (.ldVxKk (fieldX w) (fieldKk w))
  | 7 => .ok (.addVxKk (fieldX w) (fieldKk w))
  | 8 => decodeFamily8 w
  | 9 => decodeFamily9 w
  | 10 => .ok (.ldINnn (fieldNnn w))
  | 11 => .ok (.jpV0Nnn (fieldNnn w))
  | 12 => .ok (.rndVxKk (fieldX w) (fieldKk w))
  | 13 => .ok (.drwVxVyN (fieldX w) (fieldY w) (fieldN w))
  | 14 => decodeFamilyE w
  | _ => decodeFamilyF w

/-- Decoding a byte string: its first two bytes, high byte first, and the rest (30_encoding.md
R61). -/
def decodeBytes : List Byte → Except DecodeError (Instr × List Byte)
  | hi :: lo :: rest =>
    match decode (wordOfBytes hi lo) with
    | .ok i => .ok (i, rest)
    | .error e => .error e
  | [] => .error .truncated
  | [_] => .error .truncated

/-! ### The encoder -/

/-- Format NNN: the opcode nibble and a 12-bit immediate (30_encoding.md R61). The fields do not
overlap, so the OR of the spec's encodings is a sum. -/
def encNnn (op : Nat) (nnn : Imm12) : Word := BitVec.ofNat 16 (op * 4096 + nnn.toNat)

/-- Format XKK (30_encoding.md R61). -/
def encXkk (op : Nat) (x : Reg) (kk : Byte) : Word :=
  BitVec.ofNat 16 (op * 4096 + x.val * 256 + kk.toNat)

/-- Formats XY and XYN: two registers and a low nibble (30_encoding.md R61). -/
def encXyn (op : Nat) (x y : Reg) (n : Nat) : Word :=
  BitVec.ofNat 16 (op * 4096 + x.val * 256 + y.val * 16 + n)

/-- Format X: one register and a fixed low byte (30_encoding.md R61). -/
def encX (op : Nat) (x : Reg) (sel : Nat) : Word :=
  BitVec.ofNat 16 (op * 4096 + x.val * 256 + sel)

/-- The word of an instruction (30_encoding.md R61, R64). -/
def encode : Instr → Word
  | .cls => 0x00E0
  | .ret => 0x00EE
  | .jpNnn nnn => encNnn 0x1 nnn
  | .callNnn nnn => encNnn 0x2 nnn
  | .seVxKk x kk => encXkk 0x3 x kk
  | .sneVxKk x kk => encXkk 0x4 x kk
  | .seVxVy x y => encXyn 0x5 x y 0x0
  | .ldVxKk x kk => encXkk 0x6 x kk
  | .addVxKk x kk => encXkk 0x7 x kk
  | .ldVxVy x y => encXyn 0x8 x y 0x0
  | .orVxVy x y => encXyn 0x8 x y 0x1
  | .andVxVy x y => encXyn 0x8 x y 0x2
  | .xorVxVy x y => encXyn 0x8 x y 0x3
  | .addVxVy x y => encXyn 0x8 x y 0x4
  | .subVxVy x y => encXyn 0x8 x y 0x5
  | .shrVx x y => encXyn 0x8 x y 0x6
  | .subnVxVy x y => encXyn 0x8 x y 0x7
  | .shlVx x y => encXyn 0x8 x y 0xE
  | .sneVxVy x y => encXyn 0x9 x y 0x0
  | .ldINnn nnn => encNnn 0xA nnn
  | .jpV0Nnn nnn => encNnn 0xB nnn
  | .rndVxKk x kk => encXkk 0xC x kk
  | .drwVxVyN x y n => encXyn 0xD x y n
  | .skpVx x => encX 0xE x 0x9E
  | .sknpVx x => encX 0xE x 0xA1
  | .ldVxDt x => encX 0xF x 0x07
  | .ldVxK x => encX 0xF x 0x0A
  | .ldDtVx x => encX 0xF x 0x15
  | .ldStVx x => encX 0xF x 0x18
  | .addIVx x => encX 0xF x 0x1E
  | .ldFVx x => encX 0xF x 0x29
  | .ldBVx x => encX 0xF x 0x33
  | .ldMemVx x => encX 0xF x 0x55
  | .ldVxMem x => encX 0xF x 0x65

/-- The two bytes of an instruction as memory holds them, high byte first (30_encoding.md R61). -/
def encodeBytes (i : Instr) : List Byte := [highByte (encode i), lowByte (encode i)]

/-! ### The opcode map (30_encoding.md R64) -/

/-- One row of the opcode map: a word `w` is this row's instruction when `w AND mask = value`. -/
structure OpcodeRow where
  value : Word
  mask : Word
  deriving DecidableEq, Repr

/-- The word selects the row. -/
def OpcodeRow.selects (row : OpcodeRow) (w : Word) : Bool := w &&& row.mask == row.value

/-- The row of each instruction, from the columns `match` and `mask` of 30_encoding.md R64. -/
def Instr.row : Instr → OpcodeRow
  | .cls => ⟨0x00E0, 0xFFFF⟩
  | .ret => ⟨0x00EE, 0xFFFF⟩
  | .jpNnn _ => ⟨0x1000, 0xF000⟩
  | .callNnn _ => ⟨0x2000, 0xF000⟩
  | .seVxKk _ _ => ⟨0x3000, 0xF000⟩
  | .sneVxKk _ _ => ⟨0x4000, 0xF000⟩
  | .seVxVy _ _ => ⟨0x5000, 0xF00F⟩
  | .ldVxKk _ _ => ⟨0x6000, 0xF000⟩
  | .addVxKk _ _ => ⟨0x7000, 0xF000⟩
  | .ldVxVy _ _ => ⟨0x8000, 0xF00F⟩
  | .orVxVy _ _ => ⟨0x8001, 0xF00F⟩
  | .andVxVy _ _ => ⟨0x8002, 0xF00F⟩
  | .xorVxVy _ _ => ⟨0x8003, 0xF00F⟩
  | .addVxVy _ _ => ⟨0x8004, 0xF00F⟩
  | .subVxVy _ _ => ⟨0x8005, 0xF00F⟩
  | .shrVx _ _ => ⟨0x8006, 0xF00F⟩
  | .subnVxVy _ _ => ⟨0x8007, 0xF00F⟩
  | .shlVx _ _ => ⟨0x800E, 0xF00F⟩
  | .sneVxVy _ _ => ⟨0x9000, 0xF00F⟩
  | .ldINnn _ => ⟨0xA000, 0xF000⟩
  | .jpV0Nnn _ => ⟨0xB000, 0xF000⟩
  | .rndVxKk _ _ => ⟨0xC000, 0xF000⟩
  | .drwVxVyN _ _ _ => ⟨0xD000, 0xF000⟩
  | .skpVx _ => ⟨0xE09E, 0xF0FF⟩
  | .sknpVx _ => ⟨0xE0A1, 0xF0FF⟩
  | .ldVxDt _ => ⟨0xF007, 0xF0FF⟩
  | .ldVxK _ => ⟨0xF00A, 0xF0FF⟩
  | .ldDtVx _ => ⟨0xF015, 0xF0FF⟩
  | .ldStVx _ => ⟨0xF018, 0xF0FF⟩
  | .addIVx _ => ⟨0xF01E, 0xF0FF⟩
  | .ldFVx _ => ⟨0xF029, 0xF0FF⟩
  | .ldBVx _ => ⟨0xF033, 0xF0FF⟩
  | .ldMemVx _ => ⟨0xF055, 0xF0FF⟩
  | .ldVxMem _ => ⟨0xF065, 0xF0FF⟩

/-- The families 0 to 7 of the map. -/
def opcodeRowsLow : List OpcodeRow :=
  [⟨0x00E0, 0xFFFF⟩, ⟨0x00EE, 0xFFFF⟩, ⟨0x1000, 0xF000⟩, ⟨0x2000, 0xF000⟩, ⟨0x3000, 0xF000⟩,
   ⟨0x4000, 0xF000⟩, ⟨0x5000, 0xF00F⟩, ⟨0x6000, 0xF000⟩, ⟨0x7000, 0xF000⟩]

/-- The families 8 to D of the map. -/
def opcodeRowsMiddle : List OpcodeRow :=
  [⟨0x8000, 0xF00F⟩, ⟨0x8001, 0xF00F⟩, ⟨0x8002, 0xF00F⟩, ⟨0x8003, 0xF00F⟩, ⟨0x8004, 0xF00F⟩,
   ⟨0x8005, 0xF00F⟩, ⟨0x8006, 0xF00F⟩, ⟨0x8007, 0xF00F⟩, ⟨0x800E, 0xF00F⟩, ⟨0x9000, 0xF00F⟩,
   ⟨0xA000, 0xF000⟩, ⟨0xB000, 0xF000⟩, ⟨0xC000, 0xF000⟩, ⟨0xD000, 0xF000⟩]

/-- The families E and F of the map. -/
def opcodeRowsHigh : List OpcodeRow :=
  [⟨0xE09E, 0xF0FF⟩, ⟨0xE0A1, 0xF0FF⟩, ⟨0xF007, 0xF0FF⟩, ⟨0xF00A, 0xF0FF⟩, ⟨0xF015, 0xF0FF⟩,
   ⟨0xF018, 0xF0FF⟩, ⟨0xF01E, 0xF0FF⟩, ⟨0xF029, 0xF0FF⟩, ⟨0xF033, 0xF0FF⟩, ⟨0xF055, 0xF0FF⟩,
   ⟨0xF065, 0xF0FF⟩]

/-- The 34 rows of the opcode map (30_encoding.md R64). -/
def opcodeTable : List OpcodeRow := opcodeRowsLow ++ opcodeRowsMiddle ++ opcodeRowsHigh

/-! ### The host's question -/

/-- The instruction the decoder reads from the word `w` of `nbits` bits, bit 0 the least significant
bit of the one 16-bit word of an instruction: its bytes laid out as memory holds them, high byte
first, and given to the decoder. -/
def decodeTableWord (nbits w : Nat) : Option Instr :=
  match decodeBytes [highByte (BitVec.ofNat 16 (w % 2 ^ nbits)), lowByte (BitVec.ofNat 16 (w % 2 ^ nbits))] with
  | .ok (i, _) => some i
  | .error _ => none

end Sys2Proof
end

