-- ==== Sys2Proof/Config.lean ====
section
/-! DEFINITION. What is fixed for this hardware (spec/00_scope.md R6) and the one free value, the
random byte of Cxkk (spec/41_alu.md R114). -/

namespace Sys2Proof.Config

/-- MEM_SIZE: memory is 4096 bytes, addressed 0x000 to 0xFFF (00_scope.md R6, 20_memory.md R40). -/
def memSize : Nat := 4096

/-- RESET_PC, which is also LOAD_ORIGIN: 0x200 (00_scope.md R6). -/
def resetPc : Word := 0x0200

/-- The longest image LOAD accepts: 4096 - 0x200 = 3584 bytes (70_reset_and_hazards.md R203). -/
def loadLimit : Nat := 3584

/-- FONT_SIZE: the font table fills 0x000 to 0x04F (00_scope.md R6, 20_memory.md R46). -/
def fontSize : Nat := 80

/-- STACK_LIMIT: the deepest call nesting that does not fault (00_scope.md R6, 10_state.md R20,
decision D2 and conflict C2; log 9). -/
def stackLimit : Nat := 15

/-- The free random byte of the `n`-th execution of Cxkk for which the host named no byte. It has
no body on purpose: the hardware promises nothing about it (41_alu.md R114, decision D16, log 1). -/
opaque rndByte : Nat → Byte

end Sys2Proof.Config
end

