-- ==== Sys2Proof/Machine/State.lean ====
section
/-! DEFINITION. The state of the block (spec/10_state.md R10 to R30), the host's side of it, the
reasons a step can stop, and the state after RESET (spec/10_state.md R30, spec/70_reset_and_hazards.md R200). -/

namespace Sys2Proof.Machine

/-- The four causes a STEP can halt the engine with (60_exceptions.md R170). They are latched in
`State.halt` by a NEXT state; they never end a run. -/
inductive FaultCause where
  /-- The fetched word is not one of the 34 patterns (60_exceptions.md R171). -/
  | illegalOpcode
  /-- 2nnn with 15 return addresses held (60_exceptions.md R172). -/
  | stackOverflow
  /-- 00EE with an empty stack (60_exceptions.md R173). -/
  | stackUnderflow
  /-- Ex9E or ExA1 with Vx above 15 (60_exceptions.md R174). -/
  | keyIndexRange
  deriving DecidableEq, Repr

/-- The halt latch and its fault record (10_state.md R27). -/
inductive HaltLatch where
  /-- The engine executes. -/
  | running
  /-- A step faulted: its cause, the address of its instruction and the word fetched. -/
  | halted (cause : FaultCause) (pc : Word) (opcode : Word)
  deriving DecidableEq, Repr

/-- What LOAD reports (70_reset_and_hazards.md R203, 60_exceptions.md R178). -/
inductive LoadReport where
  /-- The image was copied. -/
  | accepted
  /-- The image is longer than 3584 bytes; nothing was changed. -/
  | loadOverflow
  deriving DecidableEq, Repr

/-- The six atomic events of the block's interface (00_scope.md R5). -/
inductive Event where
  /-- RESET, with the 80 font bytes it puts in place (70_reset_and_hazards.md R200). -/
  | reset (font : Vector Byte 80)
  /-- LOAD (70_reset_and_hazards.md R203). -/
  | load (image : List Byte)
  /-- STEP, with the random byte the host supplies for it (30_encoding.md R60). -/
  | step (rnd : Byte)
  /-- TICK (60_exceptions.md R184). -/
  | tick
  /-- SET_KEY (60_exceptions.md R188). -/
  | setKey (index : Fin 16) (pressed : Bool)
  /-- ACK_FRAME (60_exceptions.md R191). -/
  | ackFrame
  deriving DecidableEq, Repr

/-- The host's side, the MODEL's own bookkeeping and no state of the block (logs 1, 2, 3). -/
structure Env where
  /-- The host's coming events, oldest first; one machine step is one event. When the list is empty
  the next event is a STEP whose random byte is free (60_exceptions.md R193, log 2). -/
  agenda : List Event
  /-- What LOAD reported since RESET, if there was one (70_reset_and_hazards.md R204, log 3). -/
  loadReport : Option LoadReport
  /-- A STEP has been taken since RESET (70_reset_and_hazards.md R204, log 3). -/
  stepped : Bool
  /-- The random byte the host named for the STEP under way; nothing between events (log 1). -/
  rndArg : Option Byte
  /-- How many free random bytes have been drawn (log 1). -/
  rndCount : Nat
  deriving DecidableEq, Repr

/-- MEM, as the cells that differ from the reset contents, by rising address (20_memory.md R40,
log 6). -/
abbrev Memory := List Host.Cell

/-- The display surface, `fb[row][col]` (10_state.md R23). -/
abbrev Frame := Vector (Vector Bool 64) 32

/-- The complete state of the block (10_state.md R10), and the host's side `env`. -/
structure State where
  /-- V0 to VF (10_state.md R11). -/
  v : Vector Byte 16
  /-- The index register I (10_state.md R19). -/
  i : Word
  /-- The program counter (10_state.md R16). -/
  pc : Word
  /-- The stack pointer, the call depth (10_state.md R20). -/
  sp : Fin 16
  /-- The 16 stack entries; entry 0 is never used (10_state.md R20). -/
  stack : Vector Word 16
  /-- The delay timer (10_state.md R21). -/
  dt : Byte
  /-- The sound timer (10_state.md R21). -/
  st : Byte
  /-- MEM (20_memory.md R40). -/
  mem : Memory
  /-- FB (10_state.md R23). -/
  fb : Frame
  /-- The display dirty flag (10_state.md R26). -/
  dirty : Bool
  /-- The keys, pressed or not (10_state.md R24). -/
  key : Vector Bool 16
  /-- The halt latch (10_state.md R27). -/
  halt : HaltLatch
  /-- The host's side, no state of the block. -/
  env : Env
  deriving DecidableEq, Repr

/-- Reasons to stop with a fault. There are NONE, and nothing raises one: every fault the spec names
is latched in `State.halt` by a next state (60_exceptions.md R175), a refused LOAD changes nothing
and goes on (R178), and no event of the block stops it (R176). Safe: nothing is claimed of a stop. -/
inductive Fault where
  deriving DecidableEq, Repr

/-- Reasons to give no meaning. -/
inductive Refusal where
  /-- Raised by `exec` for an instruction that has no meaning yet: no arm does so. Safe. -/
  | notModelled (mnemonic : String)
  /-- Raised by the event LOAD after a STEP, or after another LOAD, since RESET: the spec gives such
  a history no meaning (70_reset_and_hazards.md R204, decision D17, log 3). Safe: the model says
  nothing of it. -/
  | loadOutOfOrder
  deriving DecidableEq, Repr

/-- What an instruction or an event answers. -/
abbrev Result := Host.Outcome State Fault Refusal

/-- The host's side at reset: nothing agreed, nothing loaded, nothing executed (logs 1, 2, 3). -/
def Env.reset : Env :=
  { agenda := [], loadReport := none, stepped := false, rndArg := none, rndCount := 0 }

/-- The state after RESET with the default font (10_state.md R30, 70_reset_and_hazards.md R200).
Memory lists nothing: an unlisted address reads as its reset contents. -/
def State.reset : State :=
  { v := Vector.replicate 16 0
    i := 0
    pc := Config.resetPc
    sp := 0
    stack := Vector.replicate 16 0
    dt := 0
    st := 0
    mem := []
    fb := Vector.replicate 32 (Vector.replicate 64 false)
    dirty := false
    key := Vector.replicate 16 false
    halt := .running
    env := Env.reset }

end Sys2Proof.Machine
end

