-- ==== Sys2Proof/Machine/Memory.lean ====
section
/-! DEFINITION. The byte store (spec/20_memory.md R40 to R48): what an unlisted address reads as,
the canonical form, reading and writing one byte, and storing a run of bytes. -/

namespace Sys2Proof.Machine

/-- The glyphs 0 to 7 of the default font (20_memory.md R47; PRESUMED, log 4). -/
def fontLow : List Byte :=
  [0xF0, 0x90, 0x90, 0x90, 0xF0] ++ [0x20, 0x60, 0x20, 0x20, 0x70] ++
  [0xF0, 0x10, 0xF0, 0x80, 0xF0] ++ [0xF0, 0x10, 0xF0, 0x10, 0xF0] ++
  [0x90, 0x90, 0xF0, 0x10, 0x10] ++ [0xF0, 0x80, 0xF0, 0x10, 0xF0] ++
  [0xF0, 0x80, 0xF0, 0x90, 0xF0] ++ [0xF0, 0x10, 0x20, 0x40, 0x40]

/-- The glyphs 8 to F of the default font (20_memory.md R47; PRESUMED, log 4). -/
def fontHigh : List Byte :=
  [0xF0, 0x90, 0xF0, 0x90, 0xF0] ++ [0xF0, 0x90, 0xF0, 0x10, 0xF0] ++
  [0xF0, 0x90, 0xF0, 0x90, 0x90] ++ [0xE0, 0x90, 0xE0, 0x90, 0xE0] ++
  [0xF0, 0x80, 0x80, 0x80, 0xF0] ++ [0xE0, 0x90, 0x90, 0x90, 0xE0] ++
  [0xF0, 0x80, 0xF0, 0x80, 0xF0] ++ [0xF0, 0x80, 0xF0, 0x80, 0x80]

/-- FONT, glyph `d` at bytes `5d` to `5d + 4` (20_memory.md R46, R47). -/
def fontTable : List Byte := fontLow ++ fontHigh

/-- What an address that the store does not list reads as: its reset contents, the font byte below
0x050 and 0 elsewhere (10_state.md R30, log 6). -/
def resetByte (a : Nat) : Byte := fontTable.getD a 0

/-- The default font as RESET's argument (20_memory.md R47). -/
def defaultFont : Vector Byte 80 := Vector.ofFn fun k => resetByte k.val

/-- The 12-bit mask of 20_memory.md R41: every address is reduced modulo 4096. -/
def maskAddr (a : Nat) : Nat := a % Config.memSize

/-- The canonical form: rising addresses, all below 4096, and no cell that equals what its address
reads as unlisted. -/
abbrev Memory.wf (m : Memory) : Prop :=
  m.Pairwise (fun p q => p.1 < q.1) ∧ ∀ p ∈ m, p.1 < Config.memSize ∧ p.2 ≠ resetByte p.1

/-- The byte at a masked address (20_memory.md R40). -/
def Memory.read : Memory → Nat → Byte
  | [], a => resetByte a
  | (a', b) :: m, a => if a' = a then b else Memory.read m a

/-- A new cell in front of a store, left out where it equals the reset contents. -/
def Memory.put (m : Memory) (a : Nat) (b : Byte) : Memory :=
  if b = resetByte a then m else (a, b) :: m

/-- Write one byte at a masked address, keeping the canonical form (20_memory.md R43). -/
def Memory.write : Memory → Nat → Byte → Memory
  | [], a, b => Memory.put [] a b
  | (a', b') :: m, a, b =>
    if a < a' then Memory.put ((a', b') :: m) a b
    else if a' = a then Memory.put m a b
    else (a', b') :: Memory.write m a b

/-- Store bytes at consecutive addresses in rising offset, each address masked on its own
(20_memory.md R43, R45). -/
def Memory.store (m : Memory) (base : Nat) : List Byte → Memory
  | [] => m
  | b :: bs => Memory.store (m.write (maskAddr base) b) (base + 1) bs

end Sys2Proof.Machine
end

