-- ==== Sys2Proof/Machine/Operands.lean ====
section
/-! DEFINITION. Operands (spec/30_encoding.md R63, spec/42_index_memory.md R121): general registers,
immediates, the block of registers of Fx55 and Fx65, and the one memory addressing mode. -/

namespace Sys2Proof.Machine

/-- Read `V[r]` (10_state.md R11). -/
def State.readV (s : State) (r : Reg) : Byte := s.v[r]

/-- Write `V[r]` (10_state.md R11). -/
def State.writeV (s : State) (r : Reg) (b : Byte) : State := { s with v := s.v.set r b }

/-- The register of a block at offset `k`, 0 to 15 (42_index_memory.md R128, R129). -/
def blockReg (k : Nat) : Reg := Fin.ofNat 16 k

/-- The values of V0 to Vx, V0 first (42_index_memory.md R128). -/
def State.regBlock (s : State) (x : Reg) : List Byte :=
  (List.range (x.val + 1)).map fun k => s.readV (blockReg k)

/-- A byte zero extended to 16 bits (00_scope.md R7, `zext_16`). -/
def zextByte (b : Byte) : Word := BitVec.ofNat 16 b.toNat

/-- The immediate `nnn` zero extended to 16 bits (30_encoding.md R63). -/
def zextNnn (nnn : Imm12) : Word := BitVec.ofNat 16 nnn.toNat

/-- The effective address of byte `k` of an access: `(I + k) mod 4096` (42_index_memory.md R121). -/
def State.effAddr (s : State) (k : Nat) : Nat := maskAddr (s.i.toNat + k)

/-- Byte `k` at I (42_index_memory.md R121). -/
def State.byteAtI (s : State) (k : Nat) : Byte := s.mem.read (s.effAddr k)

/-- The three decimal digits of a byte, hundreds first (42_index_memory.md R126). -/
def bcdDigits (b : Byte) : List Byte :=
  [BitVec.ofNat 8 (b.toNat / 100), BitVec.ofNat 8 (b.toNat / 10 % 10), BitVec.ofNat 8 (b.toNat % 10)]

end Sys2Proof.Machine
end

