-- ==== Sys2Proof/Machine/Flags.lean ====
section
/-! DEFINITION. Flag computations and the flag-last rule (spec/10_state.md R13, R14, R15). VF is the
only flag. -/

namespace Sys2Proof.Machine

/-- A flag as the byte VF receives. -/
def flagByte (f : Bool) : Byte := if f then 1 else 0

/-- The carry out of an 8-bit sum (41_alu.md R107). -/
def carryOut (a b : Byte) : Bool := decide (255 < a.toNat + b.toNat)

/-- No borrow in the difference `a - b`, the equal case included (41_alu.md R108, R110). -/
def noBorrow (a b : Byte) : Bool := decide (b.toNat ≤ a.toNat)

/-- The bit a right shift by one drops (41_alu.md R109). -/
def lowBit (a : Byte) : Bool := a.getLsbD 0

/-- The bit a left shift by one drops (41_alu.md R111). -/
def highBit (a : Byte) : Bool := a.getLsbD 7

/-- Write the data result to Vx, then the flag to VF last (10_state.md R14, 41_alu.md R100). -/
def State.writeWithFlag (s : State) (x : Reg) (result : Byte) (flag : Bool) : State :=
  (s.writeV x result).writeV Reg.vF (flagByte flag)

/-- The collision flag of Dxyn: VF becomes 1 on a hit and is left alone otherwise
(43_display.md R142). -/
def State.writeCollision (s : State) (hit : Bool) : State :=
  if hit then s.writeV Reg.vF 1 else s

end Sys2Proof.Machine
end

