-- ==== Sys2Proof/Machine/Ops.lean ====
section
/-! DEFINITION. The operations the meanings share: the program counter, the fetch, the call stack, memory at I,
taking a fault, and the random byte. A meaning is called with `pc` at its own instruction (`pc0`);
the state it builds on is `s.advance`, where PC holds `pc0 + 2` (spec/30_encoding.md R60, log 8). -/

namespace Sys2Proof.Machine

/-! ### Program counter -/

/-- Write PC, all 16 bits (10_state.md R16). -/
def State.setPc (s : State) (w : Word) : State := { s with pc := w }

/-- "advance PC += 2", modulo 65536 (30_encoding.md R60, 10_state.md R16). -/
def State.advance (s : State) : State := s.setPc (s.pc + 2)

/-- A skip instruction's step: past the instruction, and past the next one as well if the condition
holds (40_flow.md R89). -/
def State.skipIf (s : State) (c : Bool) : State := if c then s.advance.advance else s.advance

/-- The word at PC: two bytes, each address masked on its own, high byte first (20_memory.md R42,
10_state.md R16). -/
def State.fetchWord (s : State) : Word :=
  wordOfBytes (s.mem.read (maskAddr s.pc.toNat)) (s.mem.read (maskAddr (s.pc.toNat + 1)))

/-! ### Taking a fault -/

/-- Fault entry, on the state before the step: nothing changes but the halt latch, which records the
cause, the instruction's own address and its word (60_exceptions.md R175). There is no return from
it but RESET (R176). -/
def State.latchFault (s : State) (cause : FaultCause) (opcode : Word) : State :=
  { s with halt := .halted cause s.pc opcode }

/-! ### The call stack (10_state.md R20) -/

/-- Increment the pointer, then store; nothing when the pointer is at its limit. -/
def State.push (s : State) (w : Word) : Option State :=
  if s.sp.val = Config.stackLimit then none
  else some { s with sp := s.sp + 1, stack := s.stack.set (s.sp + 1 : Fin 16) w }

/-- Read the top entry, then decrement the pointer; nothing when the stack is empty. The entry is
not erased (40_flow.md R80). -/
def State.pop (s : State) : Option (Word × State) :=
  if s.sp = 0 then none else some (s.stack[s.sp], { s with sp := s.sp - 1 })

/-! ### Memory at I (42_index_memory.md R121) -/

/-- Store bytes at I, I + 1, ..., in that order; I is not changed. -/
def State.storeAtI (s : State) (bs : List Byte) : State := { s with mem := s.mem.store s.i.toNat bs }

/-- Load the first `count` registers from I, I + 1, ..., in that order; I is not changed. -/
def State.loadFromI (s : State) (count : Nat) : State :=
  (List.range count).foldl (fun t k => t.writeV (blockReg k) (s.byteAtI k)) s

/-! ### The random byte (41_alu.md R114, log 1) -/

/-- The random byte of this step and the state after it is drawn: the byte the host named for this
STEP, or else a fresh free value. -/
def State.drawRnd (s : State) : Byte × State :=
  match s.env.rndArg with
  | some r => (r, s)
  | none => (Config.rndByte s.env.rndCount, { s with env := { s.env with rndCount := s.env.rndCount + 1 } })

/-! ### Keys -/

/-- The least pressed index, if any key is pressed (44_keypad_timers.md R153, decision D10, log 12). -/
def firstPressed (key : Vector Bool 16) : Option (Fin 16) :=
  (List.finRange 16).find? fun k => key[k]

/-- The key named by a register's value: nothing when the value is above 15 (44_keypad_timers.md
R152). -/
def State.keyNamed (s : State) (b : Byte) : Option Bool :=
  if h : b.toNat < 16 then some (s.key[b.toNat]'h) else none

end Sys2Proof.Machine
end

