-- ==== Sys2Proof/Machine/Alu.lean ====
section
/-! DEFINITION. Register load, arithmetic, logic, shift and random (spec/41_alu.md R100 to R114). Operands are
read from the state before any write; Vx is written first and VF, as a flag, last (R100). -/

namespace Sys2Proof.Machine

/-- 6xkk: Vx becomes kk (41_alu.md R101). -/
def execLdVxKk (x : Reg) (kk : Byte) (s : State) : Result := .next (s.advance.writeV x kk)

/-- 7xkk: Vx becomes Vx + kk, no flag (41_alu.md R102). -/
def execAddVxKk (x : Reg) (kk : Byte) (s : State) : Result :=
  .next (s.advance.writeV x (s.readV x + kk))

/-- 8xy0: Vx becomes Vy (41_alu.md R103). -/
def execLdVxVy (x y : Reg) (s : State) : Result := .next (s.advance.writeV x (s.readV y))

/-- 8xy1: Vx becomes Vx OR Vy, VF untouched (41_alu.md R104). -/
def execOrVxVy (x y : Reg) (s : State) : Result :=
  .next (s.advance.writeV x (s.readV x ||| s.readV y))

/-- 8xy2: Vx becomes Vx AND Vy, VF untouched (41_alu.md R105). -/
def execAndVxVy (x y : Reg) (s : State) : Result :=
  .next (s.advance.writeV x (s.readV x &&& s.readV y))

/-- 8xy3: Vx becomes Vx XOR Vy, VF untouched (41_alu.md R106). -/
def execXorVxVy (x y : Reg) (s : State) : Result :=
  .next (s.advance.writeV x (s.readV x ^^^ s.readV y))

/-- 8xy4: Vx becomes Vx + Vy, VF the carry (41_alu.md R107). -/
def execAddVxVy (x y : Reg) (s : State) : Result :=
  .next (s.advance.writeWithFlag x (s.readV x + s.readV y) (carryOut (s.readV x) (s.readV y)))

/-- 8xy5: Vx becomes Vx - Vy, VF the absence of a borrow (41_alu.md R108). -/
def execSubVxVy (x y : Reg) (s : State) : Result :=
  .next (s.advance.writeWithFlag x (s.readV x - s.readV y) (noBorrow (s.readV x) (s.readV y)))

/-- 8xy6: Vx shifted right by one, VF its old bit 0; `y` is ignored (41_alu.md R109,
30_encoding.md R67). -/
def execShrVx (x _y : Reg) (s : State) : Result :=
  .next (s.advance.writeWithFlag x (s.readV x >>> 1) (lowBit (s.readV x)))

/-- 8xy7: Vx becomes Vy - Vx, VF the absence of a borrow (41_alu.md R110). -/
def execSubnVxVy (x y : Reg) (s : State) : Result :=
  .next (s.advance.writeWithFlag x (s.readV y - s.readV x) (noBorrow (s.readV y) (s.readV x)))

/-- 8xyE: Vx shifted left by one, VF its old bit 7; `y` is ignored (41_alu.md R111,
30_encoding.md R67). -/
def execShlVx (x _y : Reg) (s : State) : Result :=
  .next (s.advance.writeWithFlag x (s.readV x <<< 1) (highBit (s.readV x)))

/-- Cxkk: Vx becomes the step's random byte AND kk (41_alu.md R114, log 1). -/
def execRndVxKk (x : Reg) (kk : Byte) (s : State) : Result :=
  .next (s.drawRnd.2.advance.writeV x (s.drawRnd.1 &&& kk))

end Sys2Proof.Machine
end

