-- ==== Sys2Proof/Machine/Display.lean ====
section
/-! DEFINITION. The display instructions (spec/43_display.md R140 to R144). -/

namespace Sys2Proof.Machine

/-- The display with every pixel off (43_display.md R140). -/
def blankFrame : Frame := Vector.replicate 32 (Vector.replicate 64 false)

/-- The pixel at a row and a column (10_state.md R23). -/
def Frame.get (fb : Frame) (row : Fin 32) (col : Fin 64) : Bool := fb[row][col]

/-- XOR one bit into a pixel (43_display.md R141). -/
def Frame.flip (fb : Frame) (row : Fin 32) (col : Fin 64) (bit : Bool) : Frame :=
  fb.set row (fb[row].set col (fb.get row col ^^ bit))

/-- The bit of a sprite byte that column `c` of the sprite shows: bit 7 is the leftmost column
(43_display.md R141, decision D7; PRESUMED, log 5). -/
def spriteBit (b : Byte) (c : Nat) : Bool := b.getLsbD (7 - c)

/-- The row a sprite row falls on; coordinates wrap (43_display.md R141, R143). -/
def wrapRow (vy : Byte) (r : Nat) : Fin 32 := Fin.ofNat 32 (vy.toNat + r)

/-- The column a sprite column falls on; coordinates wrap (43_display.md R141, R143). -/
def wrapCol (vx : Byte) (c : Nat) : Fin 64 := Fin.ofNat 64 (vx.toNat + c)

/-- A draw in progress: the display so far, and whether a pixel has gone from on to off. -/
structure Draw where
  fb : Frame
  hit : Bool
  deriving DecidableEq, Repr

/-- One pixel of a draw (43_display.md R141). -/
def Draw.pixel (d : Draw) (row : Fin 32) (col : Fin 64) (bit : Bool) : Draw :=
  { fb := d.fb.flip row col bit, hit := d.hit || (bit && d.fb.get row col) }

/-- One row of a draw: eight columns (43_display.md R141). -/
def Draw.row (d : Draw) (vx : Byte) (row : Fin 32) (b : Byte) : Draw :=
  (List.range 8).foldl (fun d c => d.pixel row (wrapCol vx c) (spriteBit b c)) d

/-- The whole draw: `n` rows from the bytes at I. Vx and Vy are read once, before any write
(43_display.md R141, decision D8, log 13). -/
def State.drawSprite (s : State) (vx vy : Byte) (n : Nat) : Draw :=
  (List.range n).foldl (fun d r => d.row vx (wrapRow vy r) (s.byteAtI r)) ⟨s.fb, false⟩

/-- 00E0: every pixel off, and the dirty flag set (43_display.md R140). -/
def execCls (s : State) : Result := .next { s.advance with fb := blankFrame, dirty := true }

/-- Dxyn: draw a sprite by XOR; VF becomes 1 on a collision and is otherwise left alone; the dirty
flag is set, for n = 0 too (43_display.md R141, R142, R143). -/
def execDrwVxVyN (x y : Reg) (n : Nat) (s : State) : Result :=
  let d := s.drawSprite (s.readV x) (s.readV y) n
  .next ({ s.advance with fb := d.fb, dirty := true }.writeCollision d.hit)

end Sys2Proof.Machine
end

