-- ==== Sys2Proof/Machine/Flow.lean ====
section
/-! DEFINITION. Control transfer and skips (spec/40_flow.md R80 to R90). -/

namespace Sys2Proof.Machine

/-- 00EE: pop the return address into PC; `StackUnderflow` on an empty stack (40_flow.md R80). -/
def execRet (s : State) : Result :=
  match s.pop with
  | none => .next (s.latchFault .stackUnderflow (encode .ret))
  | some (w, t) => .next (t.setPc w)

/-- 1nnn: PC becomes nnn (40_flow.md R81). -/
def execJpNnn (nnn : Imm12) (s : State) : Result := .next (s.setPc (zextNnn nnn))

/-- 2nnn: push the advanced PC, then PC becomes nnn; `StackOverflow` when the stack is full
(40_flow.md R82). -/
def execCallNnn (nnn : Imm12) (s : State) : Result :=
  match s.push s.advance.pc with
  | none => .next (s.latchFault .stackOverflow (encode (.callNnn nnn)))
  | some t => .next (t.setPc (zextNnn nnn))

/-- Bnnn: PC becomes V0 + nnn, not masked (40_flow.md R84). -/
def execJpV0Nnn (nnn : Imm12) (s : State) : Result :=
  .next (s.setPc (zextByte (s.readV Reg.v0) + zextNnn nnn))

/-- 3xkk: skip if Vx = kk (40_flow.md R85). -/
def execSeVxKk (x : Reg) (kk : Byte) (s : State) : Result := .next (s.skipIf (s.readV x == kk))

/-- 4xkk: skip if Vx ≠ kk (40_flow.md R86). -/
def execSneVxKk (x : Reg) (kk : Byte) (s : State) : Result := .next (s.skipIf (s.readV x != kk))

/-- 5xy0: skip if Vx = Vy (40_flow.md R87). -/
def execSeVxVy (x y : Reg) (s : State) : Result := .next (s.skipIf (s.readV x == s.readV y))

/-- 9xy0: skip if Vx ≠ Vy (40_flow.md R88). -/
def execSneVxVy (x y : Reg) (s : State) : Result := .next (s.skipIf (s.readV x != s.readV y))

end Sys2Proof.Machine
end

