-- ==== Sys2Proof/Machine/Index.lean ====
section
/-! DEFINITION. Index register, load and store (spec/42_index_memory.md R120 to R130). None of these writes a
flag; none of the loads and stores changes I (R120). -/

namespace Sys2Proof.Machine

/-- Annn: I becomes nnn (42_index_memory.md R122). -/
def execLdINnn (nnn : Imm12) (s : State) : Result := .next { s.advance with i := zextNnn nnn }

/-- Fx1E: I becomes I + Vx modulo 65536, no flag (42_index_memory.md R123). -/
def execAddIVx (x : Reg) (s : State) : Result :=
  .next { s.advance with i := s.i + zextByte (s.readV x) }

/-- Fx29: I becomes 5 times the whole byte Vx (42_index_memory.md R124). -/
def execLdFVx (x : Reg) (s : State) : Result :=
  .next { s.advance with i := 5 * zextByte (s.readV x) }

/-- Fx33: store the decimal digits of Vx at I, I + 1, I + 2 (42_index_memory.md R126). -/
def execLdBVx (x : Reg) (s : State) : Result := .next (s.advance.storeAtI (bcdDigits (s.readV x)))

/-- Fx55: store V0 to Vx from I up (42_index_memory.md R128). -/
def execLdMemVx (x : Reg) (s : State) : Result := .next (s.advance.storeAtI (s.regBlock x))

/-- Fx65: load V0 to Vx from I up (42_index_memory.md R129). -/
def execLdVxMem (x : Reg) (s : State) : Result := .next (s.advance.loadFromI (x.val + 1))

end Sys2Proof.Machine
end

