-- ==== Sys2Proof/Machine/Keypad.lean ====
section
/-! DEFINITION. The keypad and timer instructions (spec/44_keypad_timers.md R150 to R157). -/

namespace Sys2Proof.Machine

/-- Ex9E: skip if the key named by Vx is pressed; `KeyIndexRange` when Vx is above 15
(44_keypad_timers.md R150, R152). -/
def execSkpVx (x : Reg) (s : State) : Result :=
  match s.keyNamed (s.readV x) with
  | none => .next (s.latchFault .keyIndexRange (encode (.skpVx x)))
  | some pressed => .next (s.skipIf pressed)

/-- ExA1: skip if the key named by Vx is not pressed; `KeyIndexRange` when Vx is above 15
(44_keypad_timers.md R151, R152). -/
def execSknpVx (x : Reg) (s : State) : Result :=
  match s.keyNamed (s.readV x) with
  | none => .next (s.latchFault .keyIndexRange (encode (.sknpVx x)))
  | some pressed => .next (s.skipIf (!pressed))

/-- Fx0A: with no key pressed the step changes nothing, PC included; otherwise Vx becomes the least
pressed index (44_keypad_timers.md R153, R154). -/
def execLdVxK (x : Reg) (s : State) : Result :=
  match firstPressed s.key with
  | none => .next s
  | some k => .next (s.advance.writeV x (BitVec.ofNat 8 k.val))

/-- Fx07: Vx becomes DT (44_keypad_timers.md R155). -/
def execLdVxDt (x : Reg) (s : State) : Result := .next (s.advance.writeV x s.dt)

/-- Fx15: DT becomes Vx (44_keypad_timers.md R156). -/
def execLdDtVx (x : Reg) (s : State) : Result := .next { s.advance with dt := s.readV x }

/-- Fx18: ST becomes Vx (44_keypad_timers.md R157). -/
def execLdStVx (x : Reg) (s : State) : Result := .next { s.advance with st := s.readV x }

end Sys2Proof.Machine
end

