-- ==== Sys2Proof/Machine/Events.lean ====
section
/-! DEFINITION. The six events of the block (spec/00_scope.md R5): STEP (spec/30_encoding.md R60),
TICK, SET_KEY, ACK_FRAME (spec/60_exceptions.md R184, R188, R191), RESET and LOAD
(spec/70_reset_and_hazards.md R200, R203). Each is atomic (R193). -/

namespace Sys2Proof.Machine

/-! ### STEP -/

/-- The state a running STEP works on: the host's byte for it is at hand, and LOAD is no longer legal
(70_reset_and_hazards.md R204). No state of the block changes. -/
def State.beginStep (s : State) (rnd : Option Byte) : State :=
  { s with env := { s.env with stepped := true, rndArg := rnd } }

/-- After a STEP the host's byte is gone. No state of the block changes. -/
def State.endStep (s : State) : State := { s with env := { s.env with rndArg := none } }

/-- `endStep` on the answer of a meaning. -/
def endResult : Result → Result
  | .next t => .next t.endStep
  | .fault r => .fault r
  | .refused r => .refused r

/-- Decode the word at PC and execute it; an illegal word halts the engine (30_encoding.md R60,
R66, 60_exceptions.md R171). -/
def fetchExec (s : State) : Result :=
  match decode s.fetchWord with
  | .ok i => exec i s
  | .error _ => .next (s.latchFault .illegalOpcode s.fetchWord)

/-- STEP: one instruction, or one fault, or nothing when halted (30_encoding.md R60,
60_exceptions.md R176). `rnd` is the byte the host names for the step, or nothing for a free one. -/
def stepEvent (rnd : Option Byte) (s : State) : Result :=
  match s.halt with
  | .halted _ _ _ => .next s
  | .running => endResult (fetchExec (s.beginStep rnd))

/-! ### The host's events -/

/-- A timer counts down to 0 and no further (60_exceptions.md R184). -/
def countDown (t : Byte) : Byte := if t = 0 then 0 else t - 1

/-- TICK: both timers count down (60_exceptions.md R184). -/
def tickEvent (s : State) : State := { s with dt := countDown s.dt, st := countDown s.st }

/-- SET_KEY: the last write wins (60_exceptions.md R188). -/
def setKeyEvent (index : Fin 16) (pressed : Bool) (s : State) : State :=
  { s with key := s.key.set index pressed }

/-- ACK_FRAME: the dirty flag is cleared (60_exceptions.md R191). -/
def ackFrameEvent (s : State) : State := { s with dirty := false }

/-- RESET with the given font: the block as 70_reset_and_hazards.md R200 says, whatever it was
before. LOAD is legal again; the host's agenda and the free bytes drawn are the host's and stay
(logs 2, 17). -/
def resetEvent (font : Vector Byte 80) (s : State) : State :=
  { State.reset with
    mem := Memory.store [] 0 font.toList
    env := { s.env with loadReport := none, stepped := false, rndArg := none } }

/-- The state with LOAD's report recorded. -/
def State.report (s : State) (r : LoadReport) : State :=
  { s with env := { s.env with loadReport := some r } }

/-- LOAD: refused as having no meaning after a STEP or another LOAD (70_reset_and_hazards.md R204,
log 3); `LoadOverflow` with nothing changed for an image longer than 3584 bytes; otherwise the image
is copied to 0x200 up (R203). -/
def loadEvent (image : List Byte) (s : State) : Result :=
  if s.env.stepped || s.env.loadReport.isSome then .refused .loadOutOfOrder
  else if image.length ≤ Config.loadLimit then
    .next ({ s with mem := Memory.store s.mem Config.resetPc.toNat image }.report .accepted)
  else .next (s.report .loadOverflow)

/-- One event (00_scope.md R5). -/
def applyEvent (e : Event) (s : State) : Result :=
  match e with
  | .reset font => .next (resetEvent font s)
  | .load image => loadEvent image s
  | .step rnd => stepEvent (some rnd) s
  | .tick => .next (tickEvent s)
  | .setKey index pressed => .next (setKeyEvent index pressed s)
  | .ackFrame => .next (ackFrameEvent s)

/-- The next event of the block: the host's first, taken off the agenda, or a STEP with a free
random byte when the agenda is empty (60_exceptions.md R193, log 2). -/
def nextEvent (s : State) : Result :=
  match s.env.agenda with
  | [] => stepEvent none s
  | e :: rest => applyEvent e { s with env := { s.env with agenda := rest } }

/-! ### Placing an instruction -/

/-- A 16-bit word stored where the next STEP fetches, high byte at PC (20_memory.md R42). -/
def State.placeWord (s : State) (w : Word) : State :=
  { s with mem := s.mem.store s.pc.toNat [highByte w, lowByte w] }

/-- The next machine step is a STEP that executes: the engine runs and the agenda is empty. -/
def State.readyToStep (s : State) : State :=
  { s with halt := .running, env := { s.env with agenda := [] } }

end Sys2Proof.Machine
end

