-- ==== Sys2Proof/Machine/Step.lean ====
section
/-! DEFINITION. One step of the machine is one event of the block (spec/00_scope.md R5,
spec/60_exceptions.md R193; logs 2, 18). -/

namespace Sys2Proof.Machine

/-- The machine's step: the next event (Machine/Events.lean). -/
def step (s : State) : Host.Outcome State Fault Refusal := nextEvent s

/-- `s` with the instruction word `w` of `nbits` bits placed at PC, the engine running and no host
event before the next STEP, so that the next step fetches and executes it. -/
def State.withFetchWord (s : State) (nbits w : Nat) : State :=
  (s.placeWord (BitVec.ofNat 16 (w % 2 ^ nbits))).readyToStep

end Sys2Proof.Machine
end

