-- ==== Sys2Proof/Machine/Observe.lean ====
section
/-! DEFINITION. The observations of the block, pure reads of its state (spec/00_scope.md R5,
spec/60_exceptions.md R186, R190). -/

namespace Sys2Proof.Machine

/-- PIXEL: `FB[row][col]` (60_exceptions.md R190). -/
def State.pixel (s : State) (row : Fin 32) (col : Fin 64) : Bool := Frame.get s.fb row col

/-- DIRTY (60_exceptions.md R190). -/
def State.dirtySeen (s : State) : Bool := s.dirty

/-- SOUND: 1 exactly when ST > 0 (60_exceptions.md R186). -/
def State.sound (s : State) : Bool := decide (0 < s.st.toNat)

/-- FAULT: the halt latch and its record (00_scope.md R5). -/
def State.faultSeen (s : State) : HaltLatch := s.halt

end Sys2Proof.Machine
end

