-- ==== Sys2Proof/Safety.lean ====
section
/-! DEFINITION. The terms in which claims about the machine are made: the ends of a run
(spec/70_reset_and_hazards.md R210), what a state keeps of another (frames), the words of an
instruction, the fault a state is about to take (spec/60_exceptions.md R170), and the invariant
that every step keeps. -/

namespace Sys2Proof.Machine

/-! ### Ends of a run (70_reset_and_hazards.md R210) -/

/-- Halted: a step has faulted. This is always a failure (60_exceptions.md R176). -/
def State.Halted (s : State) : Prop := s.halt ≠ .running

/-- Parked: the engine runs, PC is below 0x1000 and the word there is a jump to itself. -/
def State.Parked (s : State) : Prop :=
  s.halt = .running ∧ s.pc.toNat < 0x1000 ∧ s.fetchWord = 0x1000 ||| s.pc

/-- The host issues nothing but STEPs in this stretch of the agenda; where it is empty or ends, the steps
that follow are STEPs with a free random byte (log 2). -/
def OnlySteps (agenda : List Event) : Prop := ∀ e ∈ agenda, ∃ rnd, e = .step rnd

/-- The states the machine can reach from reset for some agenda of the host: every finite history of
60_exceptions.md R193. -/
inductive Reachable : State → Prop where
  | start (agenda : List Event) :
      Reachable { State.reset with env := { Env.reset with agenda := agenda } }
  | next {s t : State} (h : Reachable s) (hs : step s = .next t) : Reachable t

/-- A safe run never takes a fault: the spec counts a halted state as gone wrong
(60_exceptions.md R176). -/
def SafeFrom (s : State) : Prop :=
  ∀ (k : Nat) (t : State), Sys2Proof.core.run k s = .next t → ¬ t.Halted

/-! ### Frames -/

/-- The pieces of the block (10_state.md R10), with the host's side last. -/
inductive Part where
  | v | i | pc | sp | stack | dt | st | mem | fb | dirty | key | halt | env
  deriving DecidableEq, Repr

/-- `t` holds what `s` holds in one piece, read as the machine reads it. -/
def State.Keeps (s t : State) : Part → Prop
  | .v => ∀ r, t.readV r = s.readV r
  | .i => t.i = s.i
  | .pc => t.pc = s.pc
  | .sp => t.sp = s.sp
  | .stack => ∀ k : Fin 16, t.stack[k] = s.stack[k]
  | .dt => t.dt = s.dt
  | .st => t.st = s.st
  | .mem => ∀ a, t.mem.read a = s.mem.read a
  | .fb => ∀ row col, t.pixel row col = s.pixel row col
  | .dirty => t.dirty = s.dirty
  | .key => ∀ k : Fin 16, t.key[k] = s.key[k]
  | .halt => t.halt = s.halt
  | .env => t.env = s.env

/-- `t` differs from `s` at most in the pieces named. -/
def State.KeepsAllBut (s t : State) (changed : List Part) : Prop :=
  ∀ p, p ∉ changed → s.Keeps t p

/-- `t` differs from `s` in V at most in the registers named. -/
def State.KeepsRegsBut (s t : State) (changed : List Reg) : Prop :=
  ∀ r, r ∉ changed → t.readV r = s.readV r

/-- `t` differs from `s` in memory at most at the first `count` addresses from I, the addresses the
stores of Fx33 and Fx55 compute (42_index_memory.md R121). -/
def State.KeepsMemoryButAtI (s t : State) (count : Nat) : Prop :=
  ∀ a, (∀ k < count, a ≠ s.effAddr k) → t.mem.read a = s.mem.read a

/-- From `s` to `t`, the instruction at PC wrote `b` to register `x` and did nothing else. -/
def State.WroteReg (s t : State) (x : Reg) (b : Byte) : Prop :=
  t.readV x = b ∧ s.KeepsRegsBut t [x] ∧ t.pc = s.pc + 2 ∧ s.KeepsAllBut t [.v, .pc]

/-- From `s` to `t`, the instruction at PC wrote the data result `b` to Vx and then the flag `f` to VF,
which is lost from Vx when x is 15 (10_state.md R14), and did nothing else. -/
def State.WroteRegThenFlag (s t : State) (x : Reg) (b f : Byte) : Prop :=
  (x ≠ Reg.vF → t.readV x = b) ∧ t.readV Reg.vF = f ∧ s.KeepsRegsBut t [x, Reg.vF] ∧
    t.pc = s.pc + 2 ∧ s.KeepsAllBut t [.v, .pc]

/-- `t` is `s` but for the host's side. -/
def State.SameBlock (s t : State) : Prop := { t with env := s.env } = s

/-! ### Words of instructions -/

/-- The value of a field placed with its least significant bit at `lo` (30_encoding.md R61). -/
def fieldAt (value lo : Nat) : Word := BitVec.ofNat 16 value <<< lo

/-- `w` is the word of `i`: the encoder gives it and the decoder reads it back. -/
def IsWordOf (w : Word) (i : Instr) : Prop := encode i = w ∧ decode w = .ok i

/-- The general registers an instruction may write (10_state.md R12). -/
def regsWritten : Instr → List Reg
  | .ldVxKk x _ | .addVxKk x _ | .ldVxVy x _ | .orVxVy x _ | .andVxVy x _ | .xorVxVy x _
  | .rndVxKk x _ | .ldVxDt x | .ldVxK x => [x]
  | .addVxVy x _ | .subVxVy x _ | .shrVx x _ | .subnVxVy x _ | .shlVx x _ => [x, Reg.vF]
  | .drwVxVyN _ _ _ => [Reg.vF]
  | .ldVxMem x => (List.finRange 16).filter (· ≤ x)
  | .cls | .ret | .jpNnn _ | .callNnn _ | .seVxKk _ _ | .sneVxKk _ _ | .seVxVy _ _ | .sneVxVy _ _
  | .ldINnn _ | .jpV0Nnn _ | .skpVx _ | .sknpVx _ | .ldDtVx _ | .ldStVx _ | .addIVx _ | .ldFVx _
  | .ldBVx _ | .ldMemVx _ => []

/-! ### Faults -/

/-- The fault an instruction raises in this state, if it raises one (60_exceptions.md R170, R177). -/
def faultOfInstr (i : Instr) (s : State) : Option FaultCause :=
  match i with
  | .callNnn _ => if s.sp = 15 then some .stackOverflow else none
  | .ret => if s.sp = 0 then some .stackUnderflow else none
  | .skpVx x => if 15 < (s.readV x).toNat then some .keyIndexRange else none
  | .sknpVx x => if 15 < (s.readV x).toNat then some .keyIndexRange else none
  | _ => none

/-- The fault a running STEP takes in this state, if it takes one (60_exceptions.md R170, R177). -/
def State.faultOfStep (s : State) : Option FaultCause :=
  match decode s.fetchWord with
  | .error _ => some .illegalOpcode
  | .ok i => faultOfInstr i s

/-- PC after a STEP: the table of 10_state.md R17. -/
def State.pcAfterStep (s : State) : Word :=
  match s.halt with
  | .halted _ _ _ => s.pc
  | .running =>
    match s.faultOfStep with
    | some _ => s.pc
    | none =>
      match decode s.fetchWord with
      | .ok (.jpNnn nnn) => BitVec.ofNat 16 nnn.toNat
      | .ok (.callNnn nnn) => BitVec.ofNat 16 nnn.toNat
      | .ok .ret => s.stack[s.sp]
      | .ok (.jpV0Nnn nnn) => BitVec.ofNat 16 ((s.readV Reg.v0).toNat + nnn.toNat)
      | .ok (.seVxKk x kk) => if s.readV x = kk then s.pc + 4 else s.pc + 2
      | .ok (.sneVxKk x kk) => if s.readV x ≠ kk then s.pc + 4 else s.pc + 2
      | .ok (.seVxVy x y) => if s.readV x = s.readV y then s.pc + 4 else s.pc + 2
      | .ok (.sneVxVy x y) => if s.readV x ≠ s.readV y then s.pc + 4 else s.pc + 2
      | .ok (.skpVx x) => if s.key.toList.getD (s.readV x).toNat false = true then s.pc + 4 else s.pc + 2
      | .ok (.sknpVx x) => if s.key.toList.getD (s.readV x).toNat false = false then s.pc + 4 else s.pc + 2
      | .ok (.ldVxK _) => if ∀ k : Fin 16, s.key[k] = false then s.pc else s.pc + 2
      | _ => s.pc + 2

/-! ### The invariant -/

/-- What every reachable state satisfies: memory is canonical (log 6); stack entry 0 is never
written (10_state.md R20); no random byte lies about between events (log 1); a halt follows a STEP;
and the fault record tells the truth about the very state it froze: PC is still the address of the
faulting instruction, memory still holds its word, and the condition of its cause still holds
(60_exceptions.md R170, R175, R176). -/
structure State.Inv (s : State) : Prop where
  memWf : s.mem.wf
  slotZero : s.stack[0] = 0
  noArg : s.env.rndArg = none
  haltedStepped : s.halt ≠ .running → s.env.stepped = true
  record : ∀ c p w, s.halt = .halted c p w →
    p = s.pc ∧ w = s.fetchWord ∧ s.faultOfStep = some c

end Sys2Proof.Machine
end

