-- ==== Sys2Proof/Certificates/Slice0/Obligations.lean ====
section
/-! DEFINITION. What is claimed of the machine, for the provers. Each docstring names the rule of
spec/ it formalises; where a statement rests on a decision the spec marks as its own (spec/92) or on a
log entry, the docstring says so. `readV` reads a general register, `pixel` a pixel, `mem.read` one byte. -/

open Sys2Proof Sys2Proof.Machine

/-! ### Encoding -/

/-- Every well-formed instruction decodes from its word, and from its two bytes followed by anything
(30_encoding.md R61, R64, R65). -/
def Obligations.DecodeOfEncodeGivesTheInstruction : Prop :=
  ∀ i : Instr, i.wellFormed = true →
    decode (encode i) = .ok i ∧ ∀ rest, decodeBytes (encodeBytes i ++ rest) = .ok (i, rest)

/-- A word that decodes is the word of what it decodes to, so that an instruction and its word
determine each other, the ignored y field of 8xy6 and 8xyE included (30_encoding.md R64, R67). -/
def Obligations.EncodeOfDecodeGivesTheWord : Prop :=
  ∀ (w : Word) (i : Instr), decode w = .ok i → encode i = w ∧ i.wellFormed = true

/-- The decode procedure agrees with the masks and matches of the opcode map: a word decodes exactly
when it selects a row, to an instruction of that row, and no word selects two of the 34 rows
(30_encoding.md R64). -/
def Obligations.DecodeAgreesWithTheOpcodeMap : Prop :=
  opcodeTable.length = 34 ∧
  (∀ (w : Word), ∀ r ∈ opcodeTable, ∀ r' ∈ opcodeTable,
    r.selects w = true → r'.selects w = true → r = r') ∧
  (∀ (w : Word) (i : Instr), decode w = .ok i → i.row ∈ opcodeTable ∧ i.row.selects w = true) ∧
  ∀ (w : Word), ∀ r ∈ opcodeTable, r.selects w = true → ∃ i, decode w = .ok i ∧ i.row = r

/-- The words that are no instruction are exactly those the spec lists, family by family
(30_encoding.md R66). -/
def Obligations.IllegalWordsAreTheListedFamilies : Prop :=
  ∀ w : Word, (¬ ∃ i, decode w = .ok i) ↔
    (w.toNat / 4096 = 0x0 ∧ w ≠ 0x00E0 ∧ w ≠ 0x00EE) ∨
    (w.toNat / 4096 = 0x5 ∧ w.toNat % 16 ≠ 0) ∨
    (w.toNat / 4096 = 0x8 ∧ w.toNat % 16 ∈ [0x8, 0x9, 0xA, 0xB, 0xC, 0xD, 0xF]) ∨
    (w.toNat / 4096 = 0x9 ∧ w.toNat % 16 ≠ 0) ∨
    (w.toNat / 4096 = 0xE ∧ w.toNat % 256 ∉ [0x9E, 0xA1]) ∨
    (w.toNat / 4096 = 0xF ∧
      w.toNat % 256 ∉ [0x07, 0x0A, 0x15, 0x18, 0x1E, 0x29, 0x33, 0x55, 0x65])

/-- Words of each of the sixteen families (bits 15..12), taken from the spec's own examples and vectors,
decode to the instruction they stand for there (30_encoding.md R64, R65; 95_test_vectors.md). -/
def Obligations.SampleWordsDecode : Prop :=
  decode 0x00E0 = .ok .cls ∧ decode 0x1234 = .ok (.jpNnn 0x234) ∧
  decode 0x2300 = .ok (.callNnn 0x300) ∧ decode 0x3A05 = .ok (.seVxKk 0xA 0x05) ∧
  decode 0x4A05 = .ok (.sneVxKk 0xA 0x05) ∧ decode 0x5120 = .ok (.seVxVy 1 2) ∧
  decode 0x6A2F = .ok (.ldVxKk 0xA 0x2F) ∧ decode 0x7A02 = .ok (.addVxKk 0xA 0x02) ∧
  decode 0x8127 = .ok (.subnVxVy 1 2) ∧ decode 0x81A6 = .ok (.shrVx 1 0xA) ∧
  decode 0x9120 = .ok (.sneVxVy 1 2) ∧ decode 0xA2F0 = .ok (.ldINnn 0x2F0) ∧
  decode 0xB210 = .ok (.jpV0Nnn 0x210) ∧ decode 0xC30F = .ok (.rndVxKk 3 0x0F) ∧
  decode 0xD015 = .ok (.drwVxVyN 0 1 5) ∧ decode 0xE5A1 = .ok (.sknpVx 5) ∧
  decode 0xF229 = .ok (.ldFVx 2) ∧ decode 0xF155 = .ok (.ldMemVx 1)

/-! ### Fetch and the STEP event -/

/-- The word fetched is the byte at PC and the byte after it, each address reduced modulo 4096 on
its own, the first byte most significant (20_memory.md section 1; the separate reduction is the
spec's decision D4). -/
def Obligations.FetchIsBigEndianAndMasked : Prop :=
  ∀ s : State, s.fetchWord.toNat =
    (s.mem.read (s.pc.toNat % 4096)).toNat * 256 + (s.mem.read ((s.pc.toNat + 1) % 4096)).toNat

/-- A step of a running machine whose word decodes runs that instruction, between the host's
bookkeeping before and after it (log 1, log 3): with no host event waiting the random byte is free,
and with a STEP waiting it is that STEP's (30_encoding.md R60). -/
def Obligations.StepRunsTheDecodedInstruction : Prop :=
  ∀ (s : State) (i : Instr), s.halt = .running → decode s.fetchWord = .ok i →
    (s.env.agenda = [] → step s = endResult (exec i (s.beginStep none))) ∧
    ∀ rnd rest, s.env.agenda = .step rnd :: rest →
      step s = endResult
        (exec i (State.beginStep { s with env := { s.env with agenda := rest } } (some rnd)))

/-- The machine's step is the host's events in the agenda's order, one a step, and a STEP when there
is none (00_scope.md R5; the agenda is the model's own, log 2). -/
def Obligations.EventsHappenInTheAgendasOrder : Prop :=
  ∀ s : State, (s.env.agenda = [] → step s = stepEvent none s) ∧
    ∀ e rest, s.env.agenda = e :: rest →
      step s = applyEvent e { s with env := { s.env with agenda := rest } }

/-- A running STEP on a word that is no instruction halts the engine with the word and its address,
and changes nothing else (60_exceptions.md section 1; the latch is the spec's decision D11). -/
def Obligations.IllegalWordHaltsTheEngine : Prop :=
  ∀ (s : State) (rnd : Option Byte), s.halt = .running → (¬ ∃ i, decode s.fetchWord = .ok i) →
    ∃ t, stepEvent rnd s = .next t ∧ t.halt = .halted .illegalOpcode s.pc s.fetchWord ∧
      s.KeepsAllBut t [.halt, .env]

/-- A halted engine: STEP changes nothing at all, every other event that answers keeps the record,
but RESET, which starts it again (60_exceptions.md section 2; the spec's decisions D11, D12). -/
def Obligations.HaltedEngineLeavesOnlyByReset : Prop :=
  ∀ (s : State) (c : FaultCause) (p w : Word), s.halt = .halted c p w →
    (∀ rnd, stepEvent rnd s = .next s) ∧
    (∀ e t, applyEvent e s = .next t → (∀ font, e ≠ .reset font) → t.halt = s.halt) ∧
    ∀ font, ∃ t, applyEvent (.reset font) s = .next t ∧ t.halt = .running

/-- Faults are precise: a running STEP that ends halted has recorded the address and the word of its
own instruction and changed no other state of the block (60_exceptions.md section 2; the latch and
its record are the spec's decision D11). -/
def Obligations.FaultingStepChangesOnlyTheLatch : Prop :=
  ∀ (s t : State) (rnd : Option Byte) (c : FaultCause) (p w : Word), s.halt = .running →
    stepEvent rnd s = .next t → t.halt = .halted c p w →
      p = s.pc ∧ w = s.fetchWord ∧ s.KeepsAllBut t [.halt, .env] ∧
      t.env = { s.env with stepped := true, rndArg := none }

/-- A running STEP always completes, and halts exactly when the spec says a fault is raised, with
that one cause (60_exceptions.md sections 1 and 2; decisions D2, D9, D11). -/
def Obligations.StepFaultsExactlyAsListed : Prop :=
  ∀ (s : State) (rnd : Option Byte), s.halt = .running →
    ∃ t, stepEvent rnd s = .next t ∧
      t.halt = (match s.faultOfStep with
        | none => HaltLatch.running
        | some c => .halted c s.pc s.fetchWord)

/-- The machine's step stops for nothing but a LOAD that comes after a STEP or after another LOAD,
which the spec gives no meaning (70_reset_and_hazards.md section 2, decision D17; log 3). -/
def Obligations.OnlyAnOutOfOrderLoadIsRefused : Prop :=
  ∀ s : State, (∃ t, step s = .next t) ∨
    (step s = .refused .loadOutOfOrder ∧
      ∃ image rest, s.env.agenda = .load image :: rest ∧
        (s.env.stepped = true ∨ s.env.loadReport ≠ none))

/-! ### Flow -/

/-- 00EE pops the return address into PC; with an empty stack it raises StackUnderflow and changes
nothing else (40_flow.md R80). -/
def Obligations.RetPopsTheStack : Prop :=
  IsWordOf 0x00EE .ret ∧ ∀ s : State,
    (s.sp ≠ 0 → ∃ t, exec .ret s = .next t ∧ t.pc = s.stack[s.sp] ∧ t.sp.val = s.sp.val - 1 ∧
      s.KeepsAllBut t [.pc, .sp]) ∧
    (s.sp = 0 → ∃ t, exec .ret s = .next t ∧ t.halt = .halted .stackUnderflow s.pc 0x00EE ∧
      s.KeepsAllBut t [.halt])

/-- 1nnn puts nnn in PC, zero extended, and does nothing else (40_flow.md R81). -/
def Obligations.JumpSetsPc : Prop :=
  ∀ (nnn : Imm12) (s : State), IsWordOf (0x1000 ||| fieldAt nnn.toNat 0) (.jpNnn nnn) ∧
    ∃ t, exec (.jpNnn nnn) s = .next t ∧ t.pc.toNat = nnn.toNat ∧ s.KeepsAllBut t [.pc]

/-- 2nnn pushes the address after the call and puts nnn in PC; with 15 addresses held it raises
StackOverflow and changes nothing else (40_flow.md section 1; the limit 15 is the spec's decision
D2, log 9). -/
def Obligations.CallPushesTheReturnAddress : Prop :=
  ∀ (nnn : Imm12) (s : State), IsWordOf (0x2000 ||| fieldAt nnn.toNat 0) (.callNnn nnn) ∧
    (s.sp ≠ 15 → ∃ t, exec (.callNnn nnn) s = .next t ∧ t.pc.toNat = nnn.toNat ∧
      t.sp.val = s.sp.val + 1 ∧ t.stack[t.sp] = s.pc + 2 ∧
      (∀ k : Fin 16, k ≠ t.sp → t.stack[k] = s.stack[k]) ∧ s.KeepsAllBut t [.pc, .sp, .stack]) ∧
    (s.sp = 15 → ∃ t, exec (.callNnn nnn) s = .next t ∧
      t.halt = .halted .stackOverflow s.pc (encode (.callNnn nnn)) ∧ s.KeepsAllBut t [.halt])

/-- On a running engine that holds fewer than 15 return addresses, and with no host event but STEPs in
the next two steps, a call whose target holds 00EE returns, in these two steps, to the address
immediately after the call, with the stack pointer as before (40_flow.md R83's first sentence). A call
with 15 addresses held faults instead: the limit is the spec's decision D2 (log 9). The agenda is the
model's own (log 2): it may be empty, or hold one STEP, or begin with two. -/
def Obligations.CallThenReturnComesBack : Prop :=
  ∀ (s : State) (nnn : Imm12), s.halt = .running → OnlySteps (s.env.agenda.take 2) → s.sp ≠ 15 →
    decode s.fetchWord = .ok (.callNnn nnn) → s.mem.read nnn.toNat = 0x00 →
    s.mem.read ((nnn.toNat + 1) % 4096) = 0xEE →
    ∃ t u, step s = .next t ∧ step t = .next u ∧ t.pc.toNat = nnn.toNat ∧ u.pc = s.pc + 2 ∧
      u.sp = s.sp ∧ (∀ k : Fin 16, k.val ≠ s.sp.val + 1 → u.stack[k] = s.stack[k]) ∧
      s.KeepsAllBut u [.pc, .stack, .env] ∧ u.env.agenda = s.env.agenda.drop 2

/-- Bnnn puts V0 + nnn in PC, unmasked, and does nothing else (40_flow.md R84). -/
def Obligations.JumpWithOffsetAddsV0 : Prop :=
  ∀ (nnn : Imm12) (s : State), IsWordOf (0xB000 ||| fieldAt nnn.toNat 0) (.jpV0Nnn nnn) ∧
    ∃ t, exec (.jpV0Nnn nnn) s = .next t ∧ t.pc.toNat = (s.readV Reg.v0).toNat + nnn.toNat ∧
      s.KeepsAllBut t [.pc]

/-- 3xkk and 4xkk skip the next instruction if Vx equals, or differs from, kk, and do nothing else
(40_flow.md R85, R86). -/
def Obligations.SkipsComparingWithImmediate : Prop :=
  ∀ (x : Reg) (kk : Byte) (s : State),
    IsWordOf (0x3000 ||| fieldAt x.val 8 ||| fieldAt kk.toNat 0) (.seVxKk x kk) ∧
    IsWordOf (0x4000 ||| fieldAt x.val 8 ||| fieldAt kk.toNat 0) (.sneVxKk x kk) ∧
    (∃ t, exec (.seVxKk x kk) s = .next t ∧
      t.pc = (if s.readV x = kk then s.pc + 4 else s.pc + 2) ∧ s.KeepsAllBut t [.pc]) ∧
    ∃ t, exec (.sneVxKk x kk) s = .next t ∧
      t.pc = (if s.readV x ≠ kk then s.pc + 4 else s.pc + 2) ∧ s.KeepsAllBut t [.pc]

/-- 5xy0 and 9xy0 skip the next instruction if Vx equals, or differs from, Vy, and do nothing else;
another low nibble makes the word illegal (40_flow.md R87, R88). -/
def Obligations.SkipsComparingRegisters : Prop :=
  ∀ (x y : Reg) (s : State),
    IsWordOf (0x5000 ||| fieldAt x.val 8 ||| fieldAt y.val 4) (.seVxVy x y) ∧
    IsWordOf (0x9000 ||| fieldAt x.val 8 ||| fieldAt y.val 4) (.sneVxVy x y) ∧
    (∀ n, 0 < n → n < 16 →
      (¬ ∃ i, decode (0x5000 ||| fieldAt x.val 8 ||| fieldAt y.val 4 ||| fieldAt n 0) = .ok i) ∧
      ¬ ∃ i, decode (0x9000 ||| fieldAt x.val 8 ||| fieldAt y.val 4 ||| fieldAt n 0) = .ok i) ∧
    (∃ t, exec (.seVxVy x y) s = .next t ∧
      t.pc = (if s.readV x = s.readV y then s.pc + 4 else s.pc + 2) ∧ s.KeepsAllBut t [.pc]) ∧
    ∃ t, exec (.sneVxVy x y) s = .next t ∧
      t.pc = (if s.readV x ≠ s.readV y then s.pc + 4 else s.pc + 2) ∧ s.KeepsAllBut t [.pc]

/-! ### Arithmetic and logic -/

/-- 6xkk loads kk into Vx and does nothing else (41_alu.md R101). -/
def Obligations.LoadImmediateWritesVx : Prop :=
  ∀ (x : Reg) (kk : Byte) (s : State),
    IsWordOf (0x6000 ||| fieldAt x.val 8 ||| fieldAt kk.toNat 0) (.ldVxKk x kk) ∧
    ∃ t, exec (.ldVxKk x kk) s = .next t ∧ s.WroteReg t x kk

/-- 7xkk adds kk to Vx modulo 256 with no flag, and twice in a row adds both immediates
(41_alu.md R102). -/
def Obligations.AddImmediateWrapsWithoutFlag : Prop :=
  (∀ (x : Reg) (kk : Byte) (s : State),
    IsWordOf (0x7000 ||| fieldAt x.val 8 ||| fieldAt kk.toNat 0) (.addVxKk x kk) ∧
    ∃ t, exec (.addVxKk x kk) s = .next t ∧
      s.WroteReg t x (BitVec.ofNat 8 (((s.readV x).toNat + kk.toNat) % 256))) ∧
  ∀ (x : Reg) (kk1 kk2 : Byte) (s : State), ∃ t u, exec (.addVxKk x kk1) s = .next t ∧
    exec (.addVxKk x kk2) t = .next u ∧
    (u.readV x).toNat = ((s.readV x).toNat + kk1.toNat + kk2.toNat) % 256

/-- 8xy0 copies Vy; 8xy1, 8xy2 and 8xy3 combine Vx with Vy bit by bit; none of them writes a flag
(41_alu.md R103, R104, R105, R106). -/
def Obligations.CopyAndLogicWriteVxOnly : Prop :=
  ∀ (x y : Reg) (s : State),
    IsWordOf (0x8000 ||| fieldAt x.val 8 ||| fieldAt y.val 4) (.ldVxVy x y) ∧
    IsWordOf (0x8001 ||| fieldAt x.val 8 ||| fieldAt y.val 4) (.orVxVy x y) ∧
    IsWordOf (0x8002 ||| fieldAt x.val 8 ||| fieldAt y.val 4) (.andVxVy x y) ∧
    IsWordOf (0x8003 ||| fieldAt x.val 8 ||| fieldAt y.val 4) (.xorVxVy x y) ∧
    (∃ t, exec (.ldVxVy x y) s = .next t ∧ s.WroteReg t x (s.readV y)) ∧
    (∃ t, exec (.orVxVy x y) s = .next t ∧ s.WroteReg t x (s.readV x ||| s.readV y)) ∧
    (∃ t, exec (.andVxVy x y) s = .next t ∧ s.WroteReg t x (s.readV x &&& s.readV y)) ∧
    ∃ t, exec (.xorVxVy x y) s = .next t ∧ s.WroteReg t x (s.readV x ^^^ s.readV y)

/-- 8xy4 adds modulo 256 and writes the carry to VF last (41_alu.md R107). -/
def Obligations.AddSetsCarryLast : Prop :=
  ∀ (x y : Reg) (s : State),
    IsWordOf (0x8004 ||| fieldAt x.val 8 ||| fieldAt y.val 4) (.addVxVy x y) ∧
    ∃ t, exec (.addVxVy x y) s = .next t ∧ s.WroteRegThenFlag t x
      (BitVec.ofNat 8 (((s.readV x).toNat + (s.readV y).toNat) % 256))
      (if (s.readV x).toNat + (s.readV y).toNat > 255 then 1 else 0)

/-- 8xy5 subtracts Vy from Vx modulo 256 and writes "no borrow" to VF last (41_alu.md R108). -/
def Obligations.SubSetsNoBorrowLast : Prop :=
  ∀ (x y : Reg) (s : State),
    IsWordOf (0x8005 ||| fieldAt x.val 8 ||| fieldAt y.val 4) (.subVxVy x y) ∧
    ∃ t, exec (.subVxVy x y) s = .next t ∧ s.WroteRegThenFlag t x
      (BitVec.ofNat 8 (((s.readV x).toNat + 256 - (s.readV y).toNat) % 256))
      (if (s.readV x).toNat ≥ (s.readV y).toNat then 1 else 0)

/-- 8xy6 shifts Vx right by one and writes the bit shifted out to VF last; y plays no part
(41_alu.md R109). -/
def Obligations.ShiftRightOfVxIgnoresVy : Prop :=
  ∀ (x y : Reg) (s : State),
    IsWordOf (0x8006 ||| fieldAt x.val 8 ||| fieldAt y.val 4) (.shrVx x y) ∧
    (∀ y' : Reg, exec (.shrVx x y') s = exec (.shrVx x y) s) ∧
    ∃ t, exec (.shrVx x y) s = .next t ∧ s.WroteRegThenFlag t x
      (BitVec.ofNat 8 ((s.readV x).toNat / 2)) (BitVec.ofNat 8 ((s.readV x).toNat % 2))

/-- 8xy7 subtracts Vx from Vy modulo 256 and writes "no borrow" to VF last (41_alu.md R110). -/
def Obligations.ReverseSubSetsNoBorrowLast : Prop :=
  ∀ (x y : Reg) (s : State),
    IsWordOf (0x8007 ||| fieldAt x.val 8 ||| fieldAt y.val 4) (.subnVxVy x y) ∧
    ∃ t, exec (.subnVxVy x y) s = .next t ∧ s.WroteRegThenFlag t x
      (BitVec.ofNat 8 (((s.readV y).toNat + 256 - (s.readV x).toNat) % 256))
      (if (s.readV y).toNat ≥ (s.readV x).toNat then 1 else 0)

/-- 8xyE shifts Vx left by one and writes the bit shifted out to VF last; y plays no part
(41_alu.md R111). -/
def Obligations.ShiftLeftOfVxIgnoresVy : Prop :=
  ∀ (x y : Reg) (s : State),
    IsWordOf (0x800E ||| fieldAt x.val 8 ||| fieldAt y.val 4) (.shlVx x y) ∧
    (∀ y' : Reg, exec (.shlVx x y') s = exec (.shlVx x y) s) ∧
    ∃ t, exec (.shlVx x y) s = .next t ∧ s.WroteRegThenFlag t x
      (BitVec.ofNat 8 ((s.readV x).toNat * 2 % 256)) (BitVec.ofNat 8 ((s.readV x).toNat / 128))

/-- Cxkk writes a byte AND kk to Vx and no flag: the byte the host named for the STEP, if it named one,
and then the host's bookkeeping is untouched too; otherwise the model's next free byte, which has no
known value, and only the count of free bytes drawn goes up by one (41_alu.md section 4; the byte is
the spec's decision D16, its free form is the model's own, log 1). -/
def Obligations.RandomMasksTheHostsByte : Prop :=
  ∀ (x : Reg) (kk : Byte) (s : State),
    IsWordOf (0xC000 ||| fieldAt x.val 8 ||| fieldAt kk.toNat 0) (.rndVxKk x kk) ∧
    (∀ r, s.env.rndArg = some r →
      ∃ t, exec (.rndVxKk x kk) s = .next t ∧ s.WroteReg t x (r &&& kk)) ∧
    (s.env.rndArg = none →
      ∃ t, exec (.rndVxKk x kk) s = .next t ∧
        t.readV x = Config.rndByte s.env.rndCount &&& kk ∧ s.KeepsRegsBut t [x] ∧
        t.pc = s.pc + 2 ∧ s.KeepsAllBut t [.v, .pc, .env] ∧
        t.env = { s.env with rndCount := s.env.rndCount + 1 })

/-! ### Index, load and store -/

/-- Annn puts nnn in I, Fx1E adds Vx to I modulo 65536 (the accesses that follow reduce their
addresses modulo 4096), Fx29 puts 5 times the whole byte Vx in I; none
writes a flag or anything else (42_index_memory.md R122, R123, R124). -/
def Obligations.IndexRegisterWrites : Prop :=
  (∀ (nnn : Imm12) (s : State), IsWordOf (0xA000 ||| fieldAt nnn.toNat 0) (.ldINnn nnn) ∧
    ∃ t, exec (.ldINnn nnn) s = .next t ∧ t.i.toNat = nnn.toNat ∧ t.pc = s.pc + 2 ∧
      s.KeepsAllBut t [.i, .pc]) ∧
  (∀ (x : Reg) (s : State), IsWordOf (0xF01E ||| fieldAt x.val 8) (.addIVx x) ∧
    ∃ t, exec (.addIVx x) s = .next t ∧ t.i.toNat = (s.i.toNat + (s.readV x).toNat) % 65536 ∧
      (∀ k, t.byteAtI k = s.mem.read ((t.i.toNat + k) % 4096)) ∧
      t.pc = s.pc + 2 ∧ s.KeepsAllBut t [.i, .pc]) ∧
  ∀ (x : Reg) (s : State), IsWordOf (0xF029 ||| fieldAt x.val 8) (.ldFVx x) ∧
    ∃ t, exec (.ldFVx x) s = .next t ∧ t.i.toNat = 5 * (s.readV x).toNat ∧ t.pc = s.pc + 2 ∧
      s.KeepsAllBut t [.i, .pc]

/-- Fx33 stores the three decimal digits of Vx at I, I + 1, I + 2 and changes nothing else
(42_index_memory.md R126). The premise is the invariant's canonical memory. -/
def Obligations.StoreDecimalDigitsAtI : Prop :=
  ∀ (x : Reg) (s : State), IsWordOf (0xF033 ||| fieldAt x.val 8) (.ldBVx x) ∧
    (s.mem.wf → ∃ t, exec (.ldBVx x) s = .next t ∧
      t.mem.read (s.effAddr 0) = BitVec.ofNat 8 ((s.readV x).toNat / 100) ∧
      t.mem.read (s.effAddr 1) = BitVec.ofNat 8 ((s.readV x).toNat / 10 % 10) ∧
      t.mem.read (s.effAddr 2) = BitVec.ofNat 8 ((s.readV x).toNat % 10) ∧
      s.KeepsMemoryButAtI t 3 ∧ t.pc = s.pc + 2 ∧ s.KeepsAllBut t [.mem, .pc])

/-- The digits Fx33 stores are the only three with hundreds up to 2, tens and ones up to 9, that make
up the byte (42_index_memory.md section 2, the decimal law the spec derives). -/
def Obligations.DecimalDigitsAreUnique : Prop :=
  ∀ b h t o : Byte, bcdDigits b = [h, t, o] ↔
    100 * h.toNat + 10 * t.toNat + o.toNat = b.toNat ∧ h.toNat ≤ 2 ∧ t.toNat ≤ 9 ∧ o.toNat ≤ 9

/-- Fx55 stores V0 to Vx from I up, each address masked on its own, and changes nothing else, I
included; the next fetch reads the stored memory (42_index_memory.md R128). The premise is the invariant's canonical memory. -/
def Obligations.StoreRegistersAtI : Prop :=
  ∀ (x : Reg) (s : State), IsWordOf (0xF055 ||| fieldAt x.val 8) (.ldMemVx x) ∧
    (s.mem.wf → ∃ t, exec (.ldMemVx x) s = .next t ∧
      (∀ r : Reg, r ≤ x → t.mem.read (s.effAddr r.val) = s.readV r) ∧
      s.KeepsMemoryButAtI t (x.val + 1) ∧ t.pc = s.pc + 2 ∧ s.KeepsAllBut t [.mem, .pc] ∧
      t.fetchWord.toNat = (t.mem.read ((s.pc + 2).toNat % 4096)).toNat * 256 +
        (t.mem.read (((s.pc + 2).toNat + 1) % 4096)).toNat)

/-- Fx65 loads V0 to Vx from I up and changes nothing else (42_index_memory.md R129). -/
def Obligations.LoadRegistersFromI : Prop :=
  ∀ (x : Reg) (s : State), IsWordOf (0xF065 ||| fieldAt x.val 8) (.ldVxMem x) ∧
    ∃ t, exec (.ldVxMem x) s = .next t ∧
      (∀ r : Reg, t.readV r = if r ≤ x then s.mem.read (s.effAddr r.val) else s.readV r) ∧
      t.pc = s.pc + 2 ∧ s.KeepsAllBut t [.v, .pc]

/-- Storing V0 to Vx and loading them into a zeroed register file from the same base gives them back
(42_index_memory.md R130). The premise is the invariant's canonical memory. -/
def Obligations.StoreThenLoadReproducesRegisters : Prop :=
  ∀ (x : Reg) (s : State), s.mem.wf →
    ∃ t u, exec (.ldMemVx x) s = .next t ∧
      exec (.ldVxMem x) { t with v := Vector.replicate 16 0 } = .next u ∧
      ∀ r : Reg, u.readV r = if r ≤ x then s.readV r else 0

/-- A store into the next instruction is seen by its fetch: after Fx55 at I = the next address, the
word fetched is V0 then V1 (20_memory.md section 6, self-modifying code; the spec derives it). The
premise is the invariant's canonical memory. -/
def Obligations.StoreIsSeenByTheNextFetch : Prop :=
  ∀ (x : Reg) (s : State), s.mem.wf → 1 ≤ x.val →
    s.i.toNat % 4096 = (s.pc + 2).toNat % 4096 →
    ∃ t, exec (.ldMemVx x) s = .next t ∧
      t.fetchWord.toNat = (s.readV 0).toNat * 256 + (s.readV 1).toNat

/-! ### Display -/

/-- 00E0 turns every pixel off and sets the dirty flag, and does nothing else (43_display.md R140). -/
def Obligations.ClearTurnsEveryPixelOff : Prop :=
  IsWordOf 0x00E0 .cls ∧ ∀ s : State, ∃ t, exec .cls s = .next t ∧
    (∀ row col, t.pixel row col = false) ∧ t.dirty = true ∧ t.pc = s.pc + 2 ∧
    s.KeepsAllBut t [.fb, .dirty, .pc]

/-- Dxyn XORs the n sprite bytes at I into the display at (Vy, Vx), every pixel's row taken modulo 32
and column modulo 64, bit 7 of a byte leftmost; it sets the dirty flag, and of the registers it
changes at most VF (43_display.md section on Dxyn; bit order and sampling are the spec's decisions
D7 and D8, logs 5 and 13). -/
def Obligations.DrawXorsTheSprite : Prop :=
  ∀ (x y : Reg) (n : Nat) (s : State), n ≤ 15 →
    IsWordOf (0xD000 ||| fieldAt x.val 8 ||| fieldAt y.val 4 ||| fieldAt n 0) (.drwVxVyN x y n) ∧
    ∃ t, exec (.drwVxVyN x y n) s = .next t ∧
      (∀ r < n, ∀ c < 8, ∀ (row : Fin 32) (col : Fin 64),
        row.val = ((s.readV y).toNat + r) % 32 → col.val = ((s.readV x).toNat + c) % 64 →
        t.pixel row col =
          (s.pixel row col ^^ (s.mem.read ((s.i.toNat + r) % 4096)).getLsbD (7 - c))) ∧
      (∀ (row : Fin 32) (col : Fin 64),
        (∀ r < n, ∀ c < 8, ¬ (row.val = ((s.readV y).toNat + r) % 32 ∧
          col.val = ((s.readV x).toNat + c) % 64)) → t.pixel row col = s.pixel row col) ∧
      t.dirty = true ∧ t.pc = s.pc + 2 ∧ s.KeepsRegsBut t [Reg.vF] ∧
      s.KeepsAllBut t [.v, .fb, .dirty, .pc]

/-- The collision flag only accumulates: VF becomes 1 if some pixel goes from on to off, and keeps
its value, whatever that was, if none does (43_display.md R142). -/
def Obligations.CollisionFlagAccumulates : Prop :=
  ∀ (x y : Reg) (n : Nat) (s : State), n ≤ 15 →
    ∃ t, exec (.drwVxVyN x y n) s = .next t ∧
      ((∃ row col, s.pixel row col = true ∧ t.pixel row col = false) → t.readV Reg.vF = 1) ∧
      ((¬ ∃ row col, s.pixel row col = true ∧ t.pixel row col = false) →
        t.readV Reg.vF = s.readV Reg.vF)

/-- Drawing the same sprite twice at the same place restores the display, and the second draw sets VF
if the first turned some pixel on (43_display.md section on Dxyn, law (a), which the spec derives).
The premise on Vx and Vy says the place is the same where x or y is VF. -/
def Obligations.DrawingTwiceRestoresTheDisplay : Prop :=
  ∀ (x y : Reg) (n : Nat) (s : State), n ≤ 15 →
    ∃ t, exec (.drwVxVyN x y n) s = .next t ∧
      (t.readV x = s.readV x → t.readV y = s.readV y →
        ∃ u, exec (.drwVxVyN x y n) t = .next u ∧
          (∀ row col, u.pixel row col = s.pixel row col) ∧
          ((∃ row col, s.pixel row col = false ∧ t.pixel row col = true) → u.readV Reg.vF = 1))

/-- Draws commute on the display: two sprites, each with its own place, height and address, leave the
same pixels in either order (43_display.md section on Dxyn, law (b), which the spec derives). -/
def Obligations.DrawsCommuteOnTheDisplay : Prop :=
  ∀ (s : State) (i1 i2 : Word) (vx1 vy1 vx2 vy2 : Byte) (n1 n2 : Nat), n1 ≤ 15 → n2 ≤ 15 →
    (State.drawSprite
      { s with i := i2, fb := (State.drawSprite { s with i := i1 } vx1 vy1 n1).fb } vx2 vy2 n2).fb =
    (State.drawSprite
      { s with i := i1, fb := (State.drawSprite { s with i := i2 } vx2 vy2 n2).fb } vx1 vy1 n1).fb

/-! ### Keypad and timers -/

/-- Ex9E and ExA1 skip if the key named by Vx is pressed, or is not; with Vx above 15 they raise
KeyIndexRange and change nothing else (44_keypad_timers.md section 1; the fault is the spec's
decision D9, log 10). -/
def Obligations.KeySkipsTestOneKey : Prop :=
  ∀ (x : Reg) (s : State),
    IsWordOf (0xE09E ||| fieldAt x.val 8) (.skpVx x) ∧
    IsWordOf (0xE0A1 ||| fieldAt x.val 8) (.sknpVx x) ∧
    (∀ k : Fin 16, k.val = (s.readV x).toNat →
      (∃ t, exec (.skpVx x) s = .next t ∧
        t.pc = (if s.key[k] = true then s.pc + 4 else s.pc + 2) ∧ s.KeepsAllBut t [.pc]) ∧
      ∃ t, exec (.sknpVx x) s = .next t ∧
        t.pc = (if s.key[k] = false then s.pc + 4 else s.pc + 2) ∧ s.KeepsAllBut t [.pc]) ∧
    (15 < (s.readV x).toNat →
      (∃ t, exec (.skpVx x) s = .next t ∧
        t.halt = .halted .keyIndexRange s.pc (encode (.skpVx x)) ∧ s.KeepsAllBut t [.halt]) ∧
      ∃ t, exec (.sknpVx x) s = .next t ∧
        t.halt = .halted .keyIndexRange s.pc (encode (.sknpVx x)) ∧ s.KeepsAllBut t [.halt])

/-- Fx0A with no key pressed leaves the whole state as it is, PC included; with a key pressed it
loads the least pressed index and goes on (44_keypad_timers.md section 2; the choice of the least
index is the spec's decision D10, log 12). -/
def Obligations.WaitForKeyStallsOrLoadsTheLeast : Prop :=
  ∀ (x : Reg) (s : State), IsWordOf (0xF00A ||| fieldAt x.val 8) (.ldVxK x) ∧
    ((∀ k : Fin 16, s.key[k] = false) → exec (.ldVxK x) s = .next s) ∧
    ∀ k : Fin 16, s.key[k] = true → (∀ j : Fin 16, j < k → s.key[j] = false) →
      ∃ t, exec (.ldVxK x) s = .next t ∧ s.WroteReg t x (BitVec.ofNat 8 k.val)

/-- Fx07 reads DT into Vx, Fx15 writes DT from Vx, Fx18 writes ST from Vx, whereupon SOUND is Vx > 0
(44_keypad_timers.md R155, R156, R157). -/
def Obligations.TimerMoves : Prop :=
  ∀ (x : Reg) (s : State),
    (IsWordOf (0xF007 ||| fieldAt x.val 8) (.ldVxDt x) ∧
      ∃ t, exec (.ldVxDt x) s = .next t ∧ s.WroteReg t x s.dt) ∧
    (IsWordOf (0xF015 ||| fieldAt x.val 8) (.ldDtVx x) ∧
      ∃ t, exec (.ldDtVx x) s = .next t ∧ t.dt = s.readV x ∧ t.pc = s.pc + 2 ∧
        s.KeepsAllBut t [.dt, .pc]) ∧
    IsWordOf (0xF018 ||| fieldAt x.val 8) (.ldStVx x) ∧
      ∃ t, exec (.ldStVx x) s = .next t ∧ t.st = s.readV x ∧
        (t.sound = true ↔ 0 < (s.readV x).toNat) ∧ t.pc = s.pc + 2 ∧ s.KeepsAllBut t [.st, .pc]

/-! ### The host's events -/

/-- TICK takes one from each timer that is not 0 and changes nothing else (60_exceptions.md R184). -/
def Obligations.TickCountsBothTimersDown : Prop :=
  ∀ s : State, ∃ t, applyEvent .tick s = .next t ∧ t.dt.toNat = s.dt.toNat - 1 ∧
    t.st.toNat = s.st.toNat - 1 ∧ s.KeepsAllBut t [.dt, .st]

/-- SET_KEY writes one key flag and ACK_FRAME clears the dirty flag; neither changes anything else
(60_exceptions.md section 5; decisions D14 and D21). -/
def Obligations.KeyAndFrameEvents : Prop :=
  (∀ (k : Fin 16) (b : Bool) (s : State), ∃ t, applyEvent (.setKey k b) s = .next t ∧
    t.key[k] = b ∧ (∀ j : Fin 16, j ≠ k → t.key[j] = s.key[j]) ∧ s.KeepsAllBut t [.key]) ∧
  ∀ s : State, ∃ t, applyEvent .ackFrame s = .next t ∧ t.dirty = false ∧ s.KeepsAllBut t [.dirty]

/-- SOUND is 1 exactly when ST > 0: Fx18 sets it to whether Vx is not 0, and a TICK that takes ST
from 1 to 0 and a RESET end it (60_exceptions.md R186). -/
def Obligations.SoundIsSoundTimerAboveZero : Prop :=
  (∀ s : State, s.sound = true ↔ 0 < s.st.toNat) ∧
  (∀ (x : Reg) (s : State), ∃ t, exec (.ldStVx x) s = .next t ∧
    (t.sound = true ↔ s.readV x ≠ 0)) ∧
  (∀ s : State, s.st = 1 → ∃ t, applyEvent .tick s = .next t ∧ s.sound = true ∧ t.sound = false) ∧
  ∀ (font : Vector Byte 80) (s : State), ∃ t, applyEvent (.reset font) s = .next t ∧ t.sound = false

/-- RESET puts every piece of the block at its reset value with the font it is given, whatever the
state before it (70_reset_and_hazards.md section 1; some values are the spec's decision D13,
log 16). The host's agenda stays (log 17). -/
def Obligations.ResetForgetsThePast : Prop :=
  ∀ (font : Vector Byte 80) (s : State), ∃ t, applyEvent (.reset font) s = .next t ∧
    (∀ r, t.readV r = 0) ∧ t.i = 0 ∧ t.pc = 0x0200 ∧ t.sp = 0 ∧ (∀ k : Fin 16, t.stack[k] = 0) ∧
    t.dt = 0 ∧ t.st = 0 ∧ (∀ a : Fin 80, t.mem.read a.val = font[a]) ∧
    (∀ a, 80 ≤ a → t.mem.read a = 0) ∧ t.mem.wf ∧ (∀ row col, t.pixel row col = false) ∧
    t.dirty = false ∧ (∀ k : Fin 16, t.key[k] = false) ∧ t.halt = .running ∧
    t.env.agenda = s.env.agenda

/-- The machine's reset state is what RESET with the default font leaves (10_state.md section 9; the
font bytes are PRESUMED, log 4). -/
def Obligations.ResetStateIsResetWithTheDefaultFont : Prop :=
  resetEvent defaultFont State.reset = State.reset ∧
  State.reset.mem.read 0x000 = 0xF0 ∧ State.reset.mem.read 0x005 = 0x20 ∧
  State.reset.mem.read 0x04F = 0x80 ∧ State.reset.mem.read 0x050 = 0 ∧ State.reset.fetchWord = 0

/-- The first LOAD before any STEP: an image of at most 3584 bytes is copied to 0x200 up and nothing
else of the block changes; after a STEP or another LOAD it is refused (70_reset_and_hazards.md section
2, decision D17; log 3). The premise is the invariant's canonical memory. -/
def Obligations.LoadCopiesTheImage : Prop :=
  ∀ (image : List Byte) (s : State),
    (s.env.stepped = false → s.env.loadReport = none → image.length ≤ 3584 → s.mem.wf →
      ∃ t, applyEvent (.load image) s = .next t ∧
        (∀ (k : Nat) (h : k < image.length), t.mem.read (0x200 + k) = image[k]) ∧
        (∀ a, (∀ k < image.length, a ≠ 0x200 + k) → t.mem.read a = s.mem.read a) ∧
        t.env.loadReport = some .accepted ∧ s.KeepsAllBut t [.mem, .env]) ∧
    (s.env.stepped = true ∨ s.env.loadReport ≠ none →
      applyEvent (.load image) s = .refused .loadOutOfOrder)

/-- LoadOverflow: a first LOAD, before any STEP, of an image longer than 3584 bytes is reported,
writes no byte and does not halt the engine (60_exceptions.md R178). -/
def Obligations.OverlongImageIsReportedAndChangesNothing : Prop :=
  ∀ (image : List Byte) (s : State), s.env.stepped = false → s.env.loadReport = none →
    4096 - 0x200 < image.length →
    ∃ t, applyEvent (.load image) s = .next t ∧ t.env.loadReport = some .loadOverflow ∧
      s.KeepsAllBut t [.env]

/-! ### The whole machine -/

/-- PC after a STEP is the table of 10_state.md R17, for every instruction, fault and halted state
(arithmetic modulo 65536 is the spec's decision D3, log 14). -/
def Obligations.PcAfterAStepFollowsTheTable : Prop :=
  ∀ (s : State) (rnd : Option Byte), ∃ t, stepEvent rnd s = .next t ∧ t.pc = s.pcAfterStep

/-- No instruction writes a general register but those 10_state.md R12 lists for it (the spec derives
the table). -/
def Obligations.RegistersOutsideTheTableAreKept : Prop :=
  ∀ (i : Instr) (s t : State), exec i s = .next t → ∀ r, r ∉ regsWritten i → t.readV r = s.readV r

/-- Each piece of the block is changed by no instruction but those the spec names for it: I by Annn,
Fx1E, Fx29 (10_state.md R19); memory by Fx33 and Fx55 (20_memory.md R45); the stack by 2nnn and its
pointer by 2nnn and 00EE (10_state.md R20); DT by Fx15 and ST by Fx18 (R21); the display and the dirty
flag by 00E0 and Dxyn (R23, R26); the keys by none (R24). -/
def Obligations.EachPieceHasItsOwnWriters : Prop :=
  ∀ (i : Instr) (s t : State), exec i s = .next t →
    ((∀ a, i ≠ .ldINnn a) → (∀ x, i ≠ .addIVx x) → (∀ x, i ≠ .ldFVx x) → t.i = s.i) ∧
    ((∀ x, i ≠ .ldBVx x) → (∀ x, i ≠ .ldMemVx x) → s.Keeps t .mem) ∧
    ((∀ a, i ≠ .callNnn a) → s.Keeps t .stack) ∧
    ((∀ a, i ≠ .callNnn a) → i ≠ .ret → t.sp = s.sp) ∧
    ((∀ x, i ≠ .ldDtVx x) → t.dt = s.dt) ∧
    ((∀ x, i ≠ .ldStVx x) → t.st = s.st) ∧
    (i ≠ .cls → (∀ x y n, i ≠ .drwVxVyN x y n) → s.Keeps t .fb ∧ t.dirty = s.dirty) ∧
    s.Keeps t .key

/-- The delay timer never rises by itself: no event raises DT but a STEP that executes Fx15, so once
it is 0 it stays 0 until written (60_exceptions.md section 4; the free interleaving is D19). -/
def Obligations.DelayTimerRisesOnlyWhenWritten : Prop :=
  ∀ (e : Event) (s t : State), applyEvent e s = .next t →
    (∀ rnd x, e = .step rnd → decode s.fetchWord ≠ .ok (.ldDtVx x)) → t.dt.toNat ≤ s.dt.toNat

/-- A parked machine stays parked: for any number of steps in which the host issues nothing but STEPs,
its block unchanged, each step taking its event off the agenda; and through any event but RESET and LOAD
that answers, which can change no piece of the block but DT, ST, KEY and DIRTY
(70_reset_and_hazards.md section 5, decision D22; the agenda is the model's own, log 2). -/
def Obligations.ParkedMachineStaysParked : Prop :=
  ∀ s : State, s.Parked →
    (∀ k, OnlySteps (s.env.agenda.take k) →
      ∃ t, Sys2Proof.core.run k s = .next t ∧ s.SameBlock t ∧ t.Parked ∧
        t.env.agenda = s.env.agenda.drop k) ∧
    ∀ e t, applyEvent e s = .next t → (∀ font, e ≠ .reset font) → (∀ image, e ≠ .load image) →
      t.Parked ∧ s.KeepsAllBut t [.dt, .st, .key, .dirty, .env]

/-- The invariant holds at reset (10_state.md section 9; `State.Inv`, logs 1, 3, 6). -/
def Obligations.ResetMeetsTheInvariant : Prop := State.reset.Inv

/-- Every step, whatever event it is, keeps the invariant: canonical memory, stack entry 0 untouched,
and a fault record that is true of the state it froze (`State.Inv`; 10_state.md sections 5 and 7,
60_exceptions.md section 2; the latch is D11; logs 1, 3, 6). -/
def Obligations.EveryStepKeepsTheInvariant : Prop :=
  ∀ s t : State, s.Inv → step s = .next t → t.Inv
end

