-- ==== Sys2Proof/Laws/Decode.lean ====
section
/-! SUPPORT. The fields of an encoded word, format by format (spec/30_encoding.md R61, R62), and the
bytes of a word (spec/20_memory.md R42). The round trip of each instruction follows from these by
unfolding the decoder once. -/

namespace Sys2Proof

/-! ### Bytes of a word -/

@[simp] theorem wordOfBytes_high_low (w : Word) : wordOfBytes (highByte w) (lowByte w) = w := by
  apply BitVec.eq_of_toNat_eq
  have := w.isLt
  simp only [wordOfBytes, highByte, lowByte, BitVec.toNat_ofNat]
  omega

@[simp] theorem highByte_wordOfBytes (hi lo : Byte) : highByte (wordOfBytes hi lo) = hi := by
  apply BitVec.eq_of_toNat_eq
  have := hi.isLt
  have := lo.isLt
  simp only [wordOfBytes, highByte, BitVec.toNat_ofNat]
  omega

@[simp] theorem lowByte_wordOfBytes (hi lo : Byte) : lowByte (wordOfBytes hi lo) = lo := by
  apply BitVec.eq_of_toNat_eq
  have := hi.isLt
  have := lo.isLt
  simp only [wordOfBytes, lowByte, BitVec.toNat_ofNat]
  omega

/-! ### The number of an encoded word -/

theorem encNnn_toNat {op : Nat} (h : op < 16) (nnn : Imm12) :
    (encNnn op nnn).toNat = op * 4096 + nnn.toNat := by
  have := nnn.isLt
  simp only [encNnn, BitVec.toNat_ofNat]
  omega

theorem encXkk_toNat {op : Nat} (h : op < 16) (x : Reg) (kk : Byte) :
    (encXkk op x kk).toNat = op * 4096 + x.val * 256 + kk.toNat := by
  have := kk.isLt
  have := x.isLt
  simp only [encXkk, BitVec.toNat_ofNat]
  omega

theorem encXyn_toNat {op n : Nat} (h : op < 16) (hn : n < 16) (x y : Reg) :
    (encXyn op x y n).toNat = op * 4096 + x.val * 256 + y.val * 16 + n := by
  have := x.isLt
  have := y.isLt
  simp only [encXyn, BitVec.toNat_ofNat]
  omega

theorem encX_toNat {op sel : Nat} (h : op < 16) (hs : sel < 256) (x : Reg) :
    (encX op x sel).toNat = op * 4096 + x.val * 256 + sel := by
  have := x.isLt
  simp only [encX, BitVec.toNat_ofNat]
  omega

/-! ### Format NNN -/

theorem fieldOp_encNnn {op : Nat} (h : op < 16) (nnn : Imm12) : fieldOp (encNnn op nnn) = op := by
  have := nnn.isLt
  rw [fieldOp, encNnn_toNat h]
  omega

theorem fieldNnn_encNnn {op : Nat} (h : op < 16) (nnn : Imm12) : fieldNnn (encNnn op nnn) = nnn := by
  have := nnn.isLt
  apply BitVec.eq_of_toNat_eq
  rw [fieldNnn, encNnn_toNat h, BitVec.toNat_ofNat]
  omega

/-! ### Format XKK -/

theorem fieldOp_encXkk {op : Nat} (h : op < 16) (x : Reg) (kk : Byte) :
    fieldOp (encXkk op x kk) = op := by
  have := x.isLt
  have := kk.isLt
  rw [fieldOp, encXkk_toNat h]
  omega

theorem fieldX_encXkk {op : Nat} (h : op < 16) (x : Reg) (kk : Byte) :
    fieldX (encXkk op x kk) = x := by
  have := x.isLt
  have := kk.isLt
  apply Fin.ext
  simp only [fieldX, encXkk_toNat h]
  omega

theorem fieldKk_encXkk {op : Nat} (h : op < 16) (x : Reg) (kk : Byte) :
    fieldKk (encXkk op x kk) = kk := by
  have := kk.isLt
  apply BitVec.eq_of_toNat_eq
  rw [fieldKk, encXkk_toNat h, BitVec.toNat_ofNat]
  omega

/-! ### Formats XY and XYN -/

theorem fieldOp_encXyn {op n : Nat} (h : op < 16) (hn : n < 16) (x y : Reg) :
    fieldOp (encXyn op x y n) = op := by
  have := x.isLt
  have := y.isLt
  rw [fieldOp, encXyn_toNat h hn]
  omega

theorem fieldX_encXyn {op n : Nat} (h : op < 16) (hn : n < 16) (x y : Reg) :
    fieldX (encXyn op x y n) = x := by
  have := x.isLt
  have := y.isLt
  apply Fin.ext
  simp only [fieldX, encXyn_toNat h hn]
  omega

theorem fieldY_encXyn {op n : Nat} (h : op < 16) (hn : n < 16) (x y : Reg) :
    fieldY (encXyn op x y n) = y := by
  have := x.isLt
  have := y.isLt
  apply Fin.ext
  simp only [fieldY, encXyn_toNat h hn]
  omega

theorem fieldN_encXyn {op n : Nat} (h : op < 16) (hn : n < 16) (x y : Reg) :
    fieldN (encXyn op x y n) = n := by
  rw [fieldN, encXyn_toNat h hn]
  omega

/-! ### Format X -/

theorem fieldOp_encX {op sel : Nat} (h : op < 16) (hs : sel < 256) (x : Reg) :
    fieldOp (encX op x sel) = op := by
  have := x.isLt
  rw [fieldOp, encX_toNat h hs]
  omega

theorem fieldX_encX {op sel : Nat} (h : op < 16) (hs : sel < 256) (x : Reg) :
    fieldX (encX op x sel) = x := by
  have := x.isLt
  apply Fin.ext
  simp only [fieldX, encX_toNat h hs]
  omega

theorem selKk_encX {op sel : Nat} (h : op < 16) (hs : sel < 256) (x : Reg) :
    selKk (encX op x sel) = sel := by
  rw [selKk, encX_toNat h hs]
  omega

/-! ### A word from its fields -/

theorem fieldOp_lt (w : Word) : fieldOp w < 16 := by
  have := w.isLt
  rw [fieldOp]
  omega

theorem encNnn_of_fields {w : Word} {op : Nat} (h : fieldOp w = op) :
    encNnn op (fieldNnn w) = w := by
  have := w.isLt
  apply BitVec.eq_of_toNat_eq
  rw [encNnn_toNat (h ▸ fieldOp_lt w), ← h]
  simp only [fieldOp, fieldNnn, BitVec.toNat_ofNat]
  omega

theorem encXkk_of_fields {w : Word} {op : Nat} (h : fieldOp w = op) :
    encXkk op (fieldX w) (fieldKk w) = w := by
  have := w.isLt
  apply BitVec.eq_of_toNat_eq
  rw [encXkk_toNat (h ▸ fieldOp_lt w), ← h]
  simp only [fieldOp, fieldX, fieldKk, BitVec.toNat_ofNat]
  omega

theorem encXyn_of_fields {w : Word} {op n : Nat} (h : fieldOp w = op) (hn : fieldN w = n) :
    encXyn op (fieldX w) (fieldY w) n = w := by
  have := w.isLt
  have hn' : n < 16 := by rw [← hn, fieldN]; omega
  apply BitVec.eq_of_toNat_eq
  rw [encXyn_toNat (h ▸ fieldOp_lt w) hn', ← h, ← hn]
  simp only [fieldOp, fieldX, fieldY, fieldN]
  omega

theorem encX_of_fields {w : Word} {op sel : Nat} (h : fieldOp w = op) (hs : selKk w = sel) :
    encX op (fieldX w) sel = w := by
  have := w.isLt
  have hs' : sel < 256 := by rw [← hs, selKk]; omega
  apply BitVec.eq_of_toNat_eq
  rw [encX_toNat (h ▸ fieldOp_lt w) hs', ← h, ← hs]
  simp only [fieldOp, fieldX, selKk]
  omega

end Sys2Proof
end

