-- ==== Sys2Proof/Laws/State.lean ====
section
/-! SUPPORT. One lemma per field per update of State, true by rfl, so that no later proof unfolds a
record update; and the read of a register after a write. -/

namespace Sys2Proof.Machine

/-! ### Writing PC -/

@[simp] theorem State.setPc_v (s : State) (w : Word) : (s.setPc w).v = s.v := rfl
@[simp] theorem State.setPc_i (s : State) (w : Word) : (s.setPc w).i = s.i := rfl
@[simp] theorem State.setPc_pc (s : State) (w : Word) : (s.setPc w).pc = w := rfl
@[simp] theorem State.setPc_sp (s : State) (w : Word) : (s.setPc w).sp = s.sp := rfl
@[simp] theorem State.setPc_stack (s : State) (w : Word) : (s.setPc w).stack = s.stack := rfl
@[simp] theorem State.setPc_dt (s : State) (w : Word) : (s.setPc w).dt = s.dt := rfl
@[simp] theorem State.setPc_st (s : State) (w : Word) : (s.setPc w).st = s.st := rfl
@[simp] theorem State.setPc_mem (s : State) (w : Word) : (s.setPc w).mem = s.mem := rfl
@[simp] theorem State.setPc_fb (s : State) (w : Word) : (s.setPc w).fb = s.fb := rfl
@[simp] theorem State.setPc_dirty (s : State) (w : Word) : (s.setPc w).dirty = s.dirty := rfl
@[simp] theorem State.setPc_key (s : State) (w : Word) : (s.setPc w).key = s.key := rfl
@[simp] theorem State.setPc_halt (s : State) (w : Word) : (s.setPc w).halt = s.halt := rfl
@[simp] theorem State.setPc_env (s : State) (w : Word) : (s.setPc w).env = s.env := rfl
@[simp] theorem State.setPc_readV (s : State) (w : Word) (r' : Reg) :
    (s.setPc w).readV r' = s.readV r' := rfl
@[simp] theorem State.setPc_byteAtI (s : State) (w : Word) (k : Nat) :
    (s.setPc w).byteAtI k = s.byteAtI k := rfl
@[simp] theorem State.setPc_effAddr (s : State) (w : Word) (k : Nat) :
    (s.setPc w).effAddr k = s.effAddr k := rfl
@[simp] theorem State.setPc_pixel (s : State) (w : Word) (row : Fin 32) (col : Fin 64) :
    (s.setPc w).pixel row col = s.pixel row col := rfl

/-! ### The advance of PC -/

@[simp] theorem State.advance_v (s : State) : s.advance.v = s.v := rfl
@[simp] theorem State.advance_i (s : State) : s.advance.i = s.i := rfl
@[simp] theorem State.advance_pc (s : State) : s.advance.pc = s.pc + 2 := rfl
@[simp] theorem State.advance_sp (s : State) : s.advance.sp = s.sp := rfl
@[simp] theorem State.advance_stack (s : State) : s.advance.stack = s.stack := rfl
@[simp] theorem State.advance_dt (s : State) : s.advance.dt = s.dt := rfl
@[simp] theorem State.advance_st (s : State) : s.advance.st = s.st := rfl
@[simp] theorem State.advance_mem (s : State) : s.advance.mem = s.mem := rfl
@[simp] theorem State.advance_fb (s : State) : s.advance.fb = s.fb := rfl
@[simp] theorem State.advance_dirty (s : State) : s.advance.dirty = s.dirty := rfl
@[simp] theorem State.advance_key (s : State) : s.advance.key = s.key := rfl
@[simp] theorem State.advance_halt (s : State) : s.advance.halt = s.halt := rfl
@[simp] theorem State.advance_env (s : State) : s.advance.env = s.env := rfl
@[simp] theorem State.advance_readV (s : State) (r' : Reg) : s.advance.readV r' = s.readV r' := rfl
@[simp] theorem State.advance_byteAtI (s : State) (k : Nat) :
    s.advance.byteAtI k = s.byteAtI k := rfl
@[simp] theorem State.advance_effAddr (s : State) (k : Nat) :
    s.advance.effAddr k = s.effAddr k := rfl
@[simp] theorem State.advance_pixel (s : State) (row : Fin 32) (col : Fin 64) :
    s.advance.pixel row col = s.pixel row col := rfl

/-! ### Writing a general register -/

@[simp] theorem State.writeV_v (s : State) (r : Reg) (b : Byte) :
    (s.writeV r b).v = s.v.set r b := rfl
@[simp] theorem State.writeV_i (s : State) (r : Reg) (b : Byte) : (s.writeV r b).i = s.i := rfl
@[simp] theorem State.writeV_pc (s : State) (r : Reg) (b : Byte) : (s.writeV r b).pc = s.pc := rfl
@[simp] theorem State.writeV_sp (s : State) (r : Reg) (b : Byte) : (s.writeV r b).sp = s.sp := rfl
@[simp] theorem State.writeV_stack (s : State) (r : Reg) (b : Byte) :
    (s.writeV r b).stack = s.stack := rfl
@[simp] theorem State.writeV_dt (s : State) (r : Reg) (b : Byte) : (s.writeV r b).dt = s.dt := rfl
@[simp] theorem State.writeV_st (s : State) (r : Reg) (b : Byte) : (s.writeV r b).st = s.st := rfl
@[simp] theorem State.writeV_mem (s : State) (r : Reg) (b : Byte) :
    (s.writeV r b).mem = s.mem := rfl
@[simp] theorem State.writeV_fb (s : State) (r : Reg) (b : Byte) : (s.writeV r b).fb = s.fb := rfl
@[simp] theorem State.writeV_dirty (s : State) (r : Reg) (b : Byte) :
    (s.writeV r b).dirty = s.dirty := rfl
@[simp] theorem State.writeV_key (s : State) (r : Reg) (b : Byte) :
    (s.writeV r b).key = s.key := rfl
@[simp] theorem State.writeV_halt (s : State) (r : Reg) (b : Byte) :
    (s.writeV r b).halt = s.halt := rfl
@[simp] theorem State.writeV_env (s : State) (r : Reg) (b : Byte) :
    (s.writeV r b).env = s.env := rfl
@[simp] theorem State.writeV_byteAtI (s : State) (r : Reg) (b : Byte) (k : Nat) :
    (s.writeV r b).byteAtI k = s.byteAtI k := rfl
@[simp] theorem State.writeV_effAddr (s : State) (r : Reg) (b : Byte) (k : Nat) :
    (s.writeV r b).effAddr k = s.effAddr k := rfl
@[simp] theorem State.writeV_pixel (s : State) (r : Reg) (b : Byte) (row : Fin 32) (col : Fin 64) :
    (s.writeV r b).pixel row col = s.pixel row col := rfl
@[simp] theorem State.writeV_fetchWord (s : State) (r : Reg) (b : Byte) :
    (s.writeV r b).fetchWord = s.fetchWord := rfl

/-! ### Taking a fault -/

@[simp] theorem State.latchFault_v (s : State) (c : FaultCause) (w : Word) :
    (s.latchFault c w).v = s.v := rfl
@[simp] theorem State.latchFault_i (s : State) (c : FaultCause) (w : Word) :
    (s.latchFault c w).i = s.i := rfl
@[simp] theorem State.latchFault_pc (s : State) (c : FaultCause) (w : Word) :
    (s.latchFault c w).pc = s.pc := rfl
@[simp] theorem State.latchFault_sp (s : State) (c : FaultCause) (w : Word) :
    (s.latchFault c w).sp = s.sp := rfl
@[simp] theorem State.latchFault_stack (s : State) (c : FaultCause) (w : Word) :
    (s.latchFault c w).stack = s.stack := rfl
@[simp] theorem State.latchFault_dt (s : State) (c : FaultCause) (w : Word) :
    (s.latchFault c w).dt = s.dt := rfl
@[simp] theorem State.latchFault_st (s : State) (c : FaultCause) (w : Word) :
    (s.latchFault c w).st = s.st := rfl
@[simp] theorem State.latchFault_mem (s : State) (c : FaultCause) (w : Word) :
    (s.latchFault c w).mem = s.mem := rfl
@[simp] theorem State.latchFault_fb (s : State) (c : FaultCause) (w : Word) :
    (s.latchFault c w).fb = s.fb := rfl
@[simp] theorem State.latchFault_dirty (s : State) (c : FaultCause) (w : Word) :
    (s.latchFault c w).dirty = s.dirty := rfl
@[simp] theorem State.latchFault_key (s : State) (c : FaultCause) (w : Word) :
    (s.latchFault c w).key = s.key := rfl
@[simp] theorem State.latchFault_halt (s : State) (c : FaultCause) (w : Word) :
    (s.latchFault c w).halt = .halted c s.pc w := rfl
@[simp] theorem State.latchFault_env (s : State) (c : FaultCause) (w : Word) :
    (s.latchFault c w).env = s.env := rfl
@[simp] theorem State.latchFault_readV (s : State) (c : FaultCause) (w : Word) (r' : Reg) :
    (s.latchFault c w).readV r' = s.readV r' := rfl
@[simp] theorem State.latchFault_byteAtI (s : State) (c : FaultCause) (w : Word) (k : Nat) :
    (s.latchFault c w).byteAtI k = s.byteAtI k := rfl
@[simp] theorem State.latchFault_effAddr (s : State) (c : FaultCause) (w : Word) (k : Nat) :
    (s.latchFault c w).effAddr k = s.effAddr k := rfl
@[simp] theorem State.latchFault_pixel (s : State) (c : FaultCause) (w : Word) (row : Fin 32) (col : Fin 64) :
    (s.latchFault c w).pixel row col = s.pixel row col := rfl
@[simp] theorem State.latchFault_fetchWord (s : State) (c : FaultCause) (w : Word) :
    (s.latchFault c w).fetchWord = s.fetchWord := rfl

/-! ### Storing at I -/

@[simp] theorem State.storeAtI_v (s : State) (bs : List Byte) : (s.storeAtI bs).v = s.v := rfl
@[simp] theorem State.storeAtI_i (s : State) (bs : List Byte) : (s.storeAtI bs).i = s.i := rfl
@[simp] theorem State.storeAtI_pc (s : State) (bs : List Byte) : (s.storeAtI bs).pc = s.pc := rfl
@[simp] theorem State.storeAtI_sp (s : State) (bs : List Byte) : (s.storeAtI bs).sp = s.sp := rfl
@[simp] theorem State.storeAtI_stack (s : State) (bs : List Byte) :
    (s.storeAtI bs).stack = s.stack := rfl
@[simp] theorem State.storeAtI_dt (s : State) (bs : List Byte) : (s.storeAtI bs).dt = s.dt := rfl
@[simp] theorem State.storeAtI_st (s : State) (bs : List Byte) : (s.storeAtI bs).st = s.st := rfl
@[simp] theorem State.storeAtI_mem (s : State) (bs : List Byte) :
    (s.storeAtI bs).mem = s.mem.store s.i.toNat bs := rfl
@[simp] theorem State.storeAtI_fb (s : State) (bs : List Byte) : (s.storeAtI bs).fb = s.fb := rfl
@[simp] theorem State.storeAtI_dirty (s : State) (bs : List Byte) :
    (s.storeAtI bs).dirty = s.dirty := rfl
@[simp] theorem State.storeAtI_key (s : State) (bs : List Byte) : (s.storeAtI bs).key = s.key := rfl
@[simp] theorem State.storeAtI_halt (s : State) (bs : List Byte) :
    (s.storeAtI bs).halt = s.halt := rfl
@[simp] theorem State.storeAtI_env (s : State) (bs : List Byte) : (s.storeAtI bs).env = s.env := rfl
@[simp] theorem State.storeAtI_readV (s : State) (bs : List Byte) (r' : Reg) :
    (s.storeAtI bs).readV r' = s.readV r' := rfl
@[simp] theorem State.storeAtI_effAddr (s : State) (bs : List Byte) (k : Nat) :
    (s.storeAtI bs).effAddr k = s.effAddr k := rfl
@[simp] theorem State.storeAtI_pixel (s : State) (bs : List Byte) (row : Fin 32) (col : Fin 64) :
    (s.storeAtI bs).pixel row col = s.pixel row col := rfl

/-! ### The begin of a STEP -/

@[simp] theorem State.beginStep_v (s : State) (r : Option Byte) : (s.beginStep r).v = s.v := rfl
@[simp] theorem State.beginStep_i (s : State) (r : Option Byte) : (s.beginStep r).i = s.i := rfl
@[simp] theorem State.beginStep_pc (s : State) (r : Option Byte) : (s.beginStep r).pc = s.pc := rfl
@[simp] theorem State.beginStep_sp (s : State) (r : Option Byte) : (s.beginStep r).sp = s.sp := rfl
@[simp] theorem State.beginStep_stack (s : State) (r : Option Byte) :
    (s.beginStep r).stack = s.stack := rfl
@[simp] theorem State.beginStep_dt (s : State) (r : Option Byte) : (s.beginStep r).dt = s.dt := rfl
@[simp] theorem State.beginStep_st (s : State) (r : Option Byte) : (s.beginStep r).st = s.st := rfl
@[simp] theorem State.beginStep_mem (s : State) (r : Option Byte) :
    (s.beginStep r).mem = s.mem := rfl
@[simp] theorem State.beginStep_fb (s : State) (r : Option Byte) : (s.beginStep r).fb = s.fb := rfl
@[simp] theorem State.beginStep_dirty (s : State) (r : Option Byte) :
    (s.beginStep r).dirty = s.dirty := rfl
@[simp] theorem State.beginStep_key (s : State) (r : Option Byte) :
    (s.beginStep r).key = s.key := rfl
@[simp] theorem State.beginStep_halt (s : State) (r : Option Byte) :
    (s.beginStep r).halt = s.halt := rfl
@[simp] theorem State.beginStep_env (s : State) (r : Option Byte) :
    (s.beginStep r).env = { s.env with stepped := true, rndArg := r } := rfl
@[simp] theorem State.beginStep_readV (s : State) (r : Option Byte) (r' : Reg) :
    (s.beginStep r).readV r' = s.readV r' := rfl
@[simp] theorem State.beginStep_byteAtI (s : State) (r : Option Byte) (k : Nat) :
    (s.beginStep r).byteAtI k = s.byteAtI k := rfl
@[simp] theorem State.beginStep_effAddr (s : State) (r : Option Byte) (k : Nat) :
    (s.beginStep r).effAddr k = s.effAddr k := rfl
@[simp] theorem State.beginStep_pixel (s : State) (r : Option Byte) (row : Fin 32) (col : Fin 64) :
    (s.beginStep r).pixel row col = s.pixel row col := rfl
@[simp] theorem State.beginStep_fetchWord (s : State) (r : Option Byte) :
    (s.beginStep r).fetchWord = s.fetchWord := rfl

/-! ### The end of a STEP -/

@[simp] theorem State.endStep_v (s : State) : s.endStep.v = s.v := rfl
@[simp] theorem State.endStep_i (s : State) : s.endStep.i = s.i := rfl
@[simp] theorem State.endStep_pc (s : State) : s.endStep.pc = s.pc := rfl
@[simp] theorem State.endStep_sp (s : State) : s.endStep.sp = s.sp := rfl
@[simp] theorem State.endStep_stack (s : State) : s.endStep.stack = s.stack := rfl
@[simp] theorem State.endStep_dt (s : State) : s.endStep.dt = s.dt := rfl
@[simp] theorem State.endStep_st (s : State) : s.endStep.st = s.st := rfl
@[simp] theorem State.endStep_mem (s : State) : s.endStep.mem = s.mem := rfl
@[simp] theorem State.endStep_fb (s : State) : s.endStep.fb = s.fb := rfl
@[simp] theorem State.endStep_dirty (s : State) : s.endStep.dirty = s.dirty := rfl
@[simp] theorem State.endStep_key (s : State) : s.endStep.key = s.key := rfl
@[simp] theorem State.endStep_halt (s : State) : s.endStep.halt = s.halt := rfl
@[simp] theorem State.endStep_env (s : State) : s.endStep.env = { s.env with rndArg := none } := rfl
@[simp] theorem State.endStep_readV (s : State) (r' : Reg) : s.endStep.readV r' = s.readV r' := rfl
@[simp] theorem State.endStep_byteAtI (s : State) (k : Nat) :
    s.endStep.byteAtI k = s.byteAtI k := rfl
@[simp] theorem State.endStep_effAddr (s : State) (k : Nat) :
    s.endStep.effAddr k = s.effAddr k := rfl
@[simp] theorem State.endStep_pixel (s : State) (row : Fin 32) (col : Fin 64) :
    s.endStep.pixel row col = s.pixel row col := rfl
@[simp] theorem State.endStep_fetchWord (s : State) : s.endStep.fetchWord = s.fetchWord := rfl

/-! ### LOAD's report -/

@[simp] theorem State.report_v (s : State) (r : LoadReport) : (s.report r).v = s.v := rfl
@[simp] theorem State.report_i (s : State) (r : LoadReport) : (s.report r).i = s.i := rfl
@[simp] theorem State.report_pc (s : State) (r : LoadReport) : (s.report r).pc = s.pc := rfl
@[simp] theorem State.report_sp (s : State) (r : LoadReport) : (s.report r).sp = s.sp := rfl
@[simp] theorem State.report_stack (s : State) (r : LoadReport) :
    (s.report r).stack = s.stack := rfl
@[simp] theorem State.report_dt (s : State) (r : LoadReport) : (s.report r).dt = s.dt := rfl
@[simp] theorem State.report_st (s : State) (r : LoadReport) : (s.report r).st = s.st := rfl
@[simp] theorem State.report_mem (s : State) (r : LoadReport) : (s.report r).mem = s.mem := rfl
@[simp] theorem State.report_fb (s : State) (r : LoadReport) : (s.report r).fb = s.fb := rfl
@[simp] theorem State.report_dirty (s : State) (r : LoadReport) :
    (s.report r).dirty = s.dirty := rfl
@[simp] theorem State.report_key (s : State) (r : LoadReport) : (s.report r).key = s.key := rfl
@[simp] theorem State.report_halt (s : State) (r : LoadReport) : (s.report r).halt = s.halt := rfl
@[simp] theorem State.report_env (s : State) (r : LoadReport) :
    (s.report r).env = { s.env with loadReport := some r } := rfl
@[simp] theorem State.report_readV (s : State) (r : LoadReport) (r' : Reg) :
    (s.report r).readV r' = s.readV r' := rfl
@[simp] theorem State.report_byteAtI (s : State) (r : LoadReport) (k : Nat) :
    (s.report r).byteAtI k = s.byteAtI k := rfl
@[simp] theorem State.report_effAddr (s : State) (r : LoadReport) (k : Nat) :
    (s.report r).effAddr k = s.effAddr k := rfl
@[simp] theorem State.report_pixel (s : State) (r : LoadReport) (row : Fin 32) (col : Fin 64) :
    (s.report r).pixel row col = s.pixel row col := rfl
@[simp] theorem State.report_fetchWord (s : State) (r : LoadReport) :
    (s.report r).fetchWord = s.fetchWord := rfl

/-! ### Placing an instruction -/

@[simp] theorem State.placeWord_v (s : State) (w : Word) : (s.placeWord w).v = s.v := rfl
@[simp] theorem State.placeWord_i (s : State) (w : Word) : (s.placeWord w).i = s.i := rfl
@[simp] theorem State.placeWord_pc (s : State) (w : Word) : (s.placeWord w).pc = s.pc := rfl
@[simp] theorem State.placeWord_sp (s : State) (w : Word) : (s.placeWord w).sp = s.sp := rfl
@[simp] theorem State.placeWord_stack (s : State) (w : Word) :
    (s.placeWord w).stack = s.stack := rfl
@[simp] theorem State.placeWord_dt (s : State) (w : Word) : (s.placeWord w).dt = s.dt := rfl
@[simp] theorem State.placeWord_st (s : State) (w : Word) : (s.placeWord w).st = s.st := rfl
@[simp] theorem State.placeWord_mem (s : State) (w : Word) :
    (s.placeWord w).mem = s.mem.store s.pc.toNat [highByte w, lowByte w] := rfl
@[simp] theorem State.placeWord_fb (s : State) (w : Word) : (s.placeWord w).fb = s.fb := rfl
@[simp] theorem State.placeWord_dirty (s : State) (w : Word) :
    (s.placeWord w).dirty = s.dirty := rfl
@[simp] theorem State.placeWord_key (s : State) (w : Word) : (s.placeWord w).key = s.key := rfl
@[simp] theorem State.placeWord_halt (s : State) (w : Word) : (s.placeWord w).halt = s.halt := rfl
@[simp] theorem State.placeWord_env (s : State) (w : Word) : (s.placeWord w).env = s.env := rfl
@[simp] theorem State.placeWord_readV (s : State) (w : Word) (r' : Reg) :
    (s.placeWord w).readV r' = s.readV r' := rfl
@[simp] theorem State.placeWord_effAddr (s : State) (w : Word) (k : Nat) :
    (s.placeWord w).effAddr k = s.effAddr k := rfl
@[simp] theorem State.placeWord_pixel (s : State) (w : Word) (row : Fin 32) (col : Fin 64) :
    (s.placeWord w).pixel row col = s.pixel row col := rfl

/-! ### Readiness for a STEP -/

@[simp] theorem State.readyToStep_v (s : State) : s.readyToStep.v = s.v := rfl
@[simp] theorem State.readyToStep_i (s : State) : s.readyToStep.i = s.i := rfl
@[simp] theorem State.readyToStep_pc (s : State) : s.readyToStep.pc = s.pc := rfl
@[simp] theorem State.readyToStep_sp (s : State) : s.readyToStep.sp = s.sp := rfl
@[simp] theorem State.readyToStep_stack (s : State) : s.readyToStep.stack = s.stack := rfl
@[simp] theorem State.readyToStep_dt (s : State) : s.readyToStep.dt = s.dt := rfl
@[simp] theorem State.readyToStep_st (s : State) : s.readyToStep.st = s.st := rfl
@[simp] theorem State.readyToStep_mem (s : State) : s.readyToStep.mem = s.mem := rfl
@[simp] theorem State.readyToStep_fb (s : State) : s.readyToStep.fb = s.fb := rfl
@[simp] theorem State.readyToStep_dirty (s : State) : s.readyToStep.dirty = s.dirty := rfl
@[simp] theorem State.readyToStep_key (s : State) : s.readyToStep.key = s.key := rfl
@[simp] theorem State.readyToStep_halt (s : State) : s.readyToStep.halt = .running := rfl
@[simp] theorem State.readyToStep_env (s : State) :
    s.readyToStep.env = { s.env with agenda := [] } := rfl
@[simp] theorem State.readyToStep_readV (s : State) (r' : Reg) :
    s.readyToStep.readV r' = s.readV r' := rfl
@[simp] theorem State.readyToStep_byteAtI (s : State) (k : Nat) :
    s.readyToStep.byteAtI k = s.byteAtI k := rfl
@[simp] theorem State.readyToStep_effAddr (s : State) (k : Nat) :
    s.readyToStep.effAddr k = s.effAddr k := rfl
@[simp] theorem State.readyToStep_pixel (s : State) (row : Fin 32) (col : Fin 64) :
    s.readyToStep.pixel row col = s.pixel row col := rfl
@[simp] theorem State.readyToStep_fetchWord (s : State) :
    s.readyToStep.fetchWord = s.fetchWord := rfl

/-! ### Registers -/

@[simp] theorem State.readV_writeV_self (s : State) (r : Reg) (b : Byte) :
    (s.writeV r b).readV r = b := by
  simp [State.readV, State.writeV]

theorem State.readV_writeV_ne (s : State) {r r' : Reg} (h : r' ≠ r) (b : Byte) :
    (s.writeV r b).readV r' = s.readV r' := by
  have h' : r.val ≠ r'.val := fun e => h (Fin.ext e.symm)
  simp [State.readV, State.writeV, Vector.getElem_set_ne, h']

/-- A register after a write, in one equation. -/
theorem State.readV_writeV (s : State) (r r' : Reg) (b : Byte) :
    (s.writeV r b).readV r' = if r' = r then b else s.readV r' := by
  split
  · next h => subst h; exact State.readV_writeV_self s _ b
  · next h => exact State.readV_writeV_ne s h b

end Sys2Proof.Machine
end

