-- ==== Sys2Proof/Laws/Display.lean ====
section
/-! SUPPORT. What a draw does to the display and to the collision flag, said once: a draw is the XOR
of a list of points at distinct places (spec/43_display.md R141, R142, R143). -/

namespace Sys2Proof.Machine

/-! ### One pixel -/

theorem Frame.get_flip (fb : Frame) (row row' : Fin 32) (col col' : Fin 64) (bit : Bool) :
    (fb.flip row col bit).get row' col' =
      if row' = row ∧ col' = col then (fb.get row col ^^ bit) else fb.get row' col' := by
  by_cases hr : row' = row
  · subst hr
    by_cases hc : col' = col
    · subst hc
      simp [Frame.get, Frame.flip]
    · have : col.val ≠ col'.val := fun e => hc (Fin.ext e.symm)
      simp [Frame.get, Frame.flip, Vector.getElem_set_ne, hc, this]
  · have : row.val ≠ row'.val := fun e => hr (Fin.ext e.symm)
    simp [Frame.get, Frame.flip, Vector.getElem_set_ne, hr, this]

/-- Two frames with the same pixels are equal. -/
theorem Frame.ext_get {f g : Frame} (h : ∀ row col, f.get row col = g.get row col) : f = g := by
  apply Vector.ext
  intro r hr
  apply Vector.ext
  intro c hc
  exact h ⟨r, hr⟩ ⟨c, hc⟩

@[simp] theorem Frame.get_blankFrame (row : Fin 32) (col : Fin 64) :
    Frame.get blankFrame row col = false := by
  simp [Frame.get, blankFrame]

/-! ### A list of points -/

/-- A point of a draw: its row, its column and the sprite's bit. -/
abbrev Point := Fin 32 × Fin 64 × Bool

/-- Two points lie at different places. -/
def Point.Apart (p q : Point) : Prop := ¬ (p.1 = q.1 ∧ p.2.1 = q.2.1)

/-- Draw the points of a list, in order. -/
def Draw.points (d : Draw) (ps : List Point) : Draw :=
  ps.foldl (fun d p => d.pixel p.1 p.2.1 p.2.2) d

theorem Draw.points_cons (d : Draw) (p : Point) (ps : List Point) :
    d.points (p :: ps) = (d.pixel p.1 p.2.1 p.2.2).points ps := rfl

/-- A place that no point lies at keeps its pixel. -/
theorem Draw.points_get_of_apart {ps : List Point} {row : Fin 32} {col : Fin 64}
    (h : ∀ p ∈ ps, ¬ (p.1 = row ∧ p.2.1 = col)) (d : Draw) :
    (d.points ps).fb.get row col = d.fb.get row col := by
  induction ps generalizing d with
  | nil => rfl
  | cons p ps ih =>
    rw [Draw.points_cons, ih fun q hq => h q (by simp [hq])]
    have hp := h p (by simp)
    rw [Draw.pixel, Frame.get_flip, if_neg fun e => hp ⟨e.1.symm, e.2.symm⟩]

/-- With points at distinct places, each place of a point receives its bit by XOR. -/
theorem Draw.points_get_of_mem {ps : List Point} (hps : ps.Pairwise Point.Apart) {p : Point}
    (hp : p ∈ ps) (d : Draw) :
    (d.points ps).fb.get p.1 p.2.1 = (d.fb.get p.1 p.2.1 ^^ p.2.2) := by
  induction ps generalizing d with
  | nil => simp at hp
  | cons q ps ih =>
    obtain ⟨hq, hps⟩ := List.pairwise_cons.mp hps
    rw [Draw.points_cons]
    rcases List.mem_cons.mp hp with rfl | hp
    · rw [Draw.points_get_of_apart fun q' hq' e => hq q' hq' ⟨e.1.symm, e.2.symm⟩, Draw.pixel,
        Frame.get_flip, if_pos ⟨rfl, rfl⟩]
    · have hqp := hq p hp
      rw [ih hps hp, Draw.pixel, Frame.get_flip, if_neg fun e => hqp ⟨e.1.symm, e.2.symm⟩]

/-- With points at distinct places, a draw hits when some point's bit is 1 and its pixel was on
before the draw. -/
theorem Draw.points_hit {ps : List Point} (hps : ps.Pairwise Point.Apart) (d : Draw) :
    (d.points ps).hit = true ↔
      d.hit = true ∨ ∃ p ∈ ps, p.2.2 = true ∧ d.fb.get p.1 p.2.1 = true := by
  induction ps generalizing d with
  | nil => simp [Draw.points]
  | cons q ps ih =>
    obtain ⟨hq, hps⟩ := List.pairwise_cons.mp hps
    have old : ∀ p ∈ ps, (d.pixel q.1 q.2.1 q.2.2).fb.get p.1 p.2.1 = d.fb.get p.1 p.2.1 := by
      intro p hp
      rw [Draw.pixel, Frame.get_flip, if_neg fun e => hq p hp ⟨e.1.symm, e.2.symm⟩]
    rw [Draw.points_cons, ih hps]
    constructor
    · rintro (h | ⟨p, hp, hb, hg⟩)
      · simp only [Draw.pixel, Bool.or_eq_true, Bool.and_eq_true] at h
        rcases h with h | h
        · exact .inl h
        · exact .inr ⟨q, by simp, h⟩
      · exact .inr ⟨p, by simp [hp], hb, old p hp ▸ hg⟩
    · rintro (h | ⟨p, hp, hb, hg⟩)
      · exact .inl (by simp [Draw.pixel, h])
      · rcases List.mem_cons.mp hp with rfl | hp
        · exact .inl (by simp [Draw.pixel, hb, hg])
        · exact .inr ⟨p, hp, hb, (old p hp).symm ▸ hg⟩

/-! ### The points of a sprite -/

/-- The points of a sprite, row by row and column by column. -/
def State.spritePoints (s : State) (vx vy : Byte) (n : Nat) : List Point :=
  (List.range n).flatMap fun r =>
    (List.range 8).map fun c => (wrapRow vy r, wrapCol vx c, spriteBit (s.byteAtI r) c)

theorem State.mem_spritePoints {s : State} {vx vy : Byte} {n : Nat} {p : Point} :
    p ∈ s.spritePoints vx vy n ↔
      ∃ r < n, ∃ c < 8, p = (wrapRow vy r, wrapCol vx c, spriteBit (s.byteAtI r) c) := by
  simp [State.spritePoints, eq_comm]

/-- The draw of a sprite is the draw of its points. -/
theorem State.drawSprite_eq_points (s : State) (vx vy : Byte) (n : Nat) :
    s.drawSprite vx vy n = Draw.points ⟨s.fb, false⟩ (s.spritePoints vx vy n) := by
  simp only [State.drawSprite, Draw.points, State.spritePoints, List.foldl_flatMap, List.foldl_map,
    Draw.row]

theorem wrapRow_inj {vy : Byte} {r r' : Nat} (hr : r < 32) (hr' : r' < 32)
    (h : wrapRow vy r = wrapRow vy r') : r = r' := by
  have := congrArg Fin.val h
  simp only [wrapRow, Fin.val_ofNat] at this
  omega

theorem wrapCol_inj {vx : Byte} {c c' : Nat} (hc : c < 64) (hc' : c' < 64)
    (h : wrapCol vx c = wrapCol vx c') : c = c' := by
  have := congrArg Fin.val h
  simp only [wrapCol, Fin.val_ofNat] at this
  omega

/-- No pixel is visited twice in one draw (43_display.md R142). -/
theorem State.spritePoints_apart (s : State) (vx vy : Byte) {n : Nat} (hn : n ≤ 32) :
    (s.spritePoints vx vy n).Pairwise Point.Apart := by
  rw [State.spritePoints, List.pairwise_flatMap]
  constructor
  · intro r _
    rw [List.pairwise_map]
    refine List.pairwise_lt_range.imp_of_mem ?_
    intro c c' hc hc' hlt ⟨_, he⟩
    have := wrapCol_inj (by simp at hc; omega) (by simp at hc'; omega) he
    omega
  · refine List.pairwise_lt_range.imp_of_mem ?_
    intro r r' hr hr' hlt p hp q hq ⟨he, _⟩
    simp only [List.mem_map] at hp hq
    obtain ⟨c, _, rfl⟩ := hp
    obtain ⟨c', _, rfl⟩ := hq
    have := wrapRow_inj (by simp at hr; omega) (by simp at hr'; omega) he
    omega

/-! ### What a draw does -/

/-- The place of sprite row `r` and column `c` receives the sprite's bit by XOR. -/
theorem State.drawSprite_get (s : State) (vx vy : Byte) {n r c : Nat} (hn : n ≤ 32) (hr : r < n)
    (hc : c < 8) :
    (s.drawSprite vx vy n).fb.get (wrapRow vy r) (wrapCol vx c) =
      (s.fb.get (wrapRow vy r) (wrapCol vx c) ^^ spriteBit (s.byteAtI r) c) := by
  rw [State.drawSprite_eq_points]
  exact Draw.points_get_of_mem (s.spritePoints_apart vx vy hn)
    (p := (wrapRow vy r, wrapCol vx c, spriteBit (s.byteAtI r) c))
    (State.mem_spritePoints.mpr ⟨r, hr, c, hc, rfl⟩) _

/-- A place outside the sprite keeps its pixel. -/
theorem State.drawSprite_get_outside (s : State) (vx vy : Byte) {n : Nat} {row : Fin 32}
    {col : Fin 64} (h : ∀ r < n, ∀ c < 8, ¬ (row = wrapRow vy r ∧ col = wrapCol vx c)) :
    (s.drawSprite vx vy n).fb.get row col = s.fb.get row col := by
  rw [State.drawSprite_eq_points]
  refine Draw.points_get_of_apart (fun p hp e => ?_) _
  obtain ⟨r, hr, c, hc, rfl⟩ := State.mem_spritePoints.mp hp
  exact h r hr c hc ⟨e.1.symm, e.2.symm⟩

/-- A draw hits when some pixel goes from on to off. -/
theorem State.drawSprite_hit (s : State) (vx vy : Byte) {n : Nat} (hn : n ≤ 32) :
    (s.drawSprite vx vy n).hit = true ↔
      ∃ r < n, ∃ c < 8, spriteBit (s.byteAtI r) c = true ∧
        s.fb.get (wrapRow vy r) (wrapCol vx c) = true := by
  rw [State.drawSprite_eq_points, Draw.points_hit (s.spritePoints_apart vx vy hn)]
  simp only [Bool.false_eq_true, false_or]
  constructor
  · rintro ⟨p, hp, hb, hg⟩
    obtain ⟨r, hr, c, hc, rfl⟩ := State.mem_spritePoints.mp hp
    exact ⟨r, hr, c, hc, hb, hg⟩
  · rintro ⟨r, hr, c, hc, hb, hg⟩
    exact ⟨_, State.mem_spritePoints.mpr ⟨r, hr, c, hc, rfl⟩, hb, hg⟩

end Sys2Proof.Machine
end

