-- ==== Sys2Proof/Laws/Memory.lean ====
section
/-! SUPPORT. The laws of the byte store: a read after a write, every other address, and the
canonical form kept by every operation (spec/20_memory.md R43, R45; log 6). -/

namespace Sys2Proof.Machine

theorem maskAddr_lt (a : Nat) : maskAddr a < Config.memSize :=
  Nat.mod_lt _ (by decide)

theorem maskAddr_of_lt {a : Nat} (h : a < Config.memSize) : maskAddr a = a :=
  Nat.mod_eq_of_lt h

@[simp] theorem maskAddr_maskAddr (a : Nat) : maskAddr (maskAddr a) = maskAddr a :=
  Nat.mod_mod _ _

/-- Different offsets below 4096 from one base fall on different addresses. -/
theorem maskAddr_add_inj {base j k : Nat} (hj : j < Config.memSize) (hk : k < Config.memSize)
    (h : maskAddr (base + j) = maskAddr (base + k)) : j = k := by
  simp only [maskAddr, Config.memSize] at *
  omega

/-! ### Reading -/

@[simp] theorem Memory.read_nil (a : Nat) : Memory.read [] a = resetByte a := rfl

theorem Memory.read_cons (a' : Nat) (b : Byte) (m : Memory) (a : Nat) :
    Memory.read ((a', b) :: m) a = if a' = a then b else Memory.read m a := rfl

/-- An address below every listed one reads as its reset contents. -/
theorem Memory.read_of_forall_lt {m : Memory} {a : Nat} (h : ∀ p ∈ m, a < p.1) :
    Memory.read m a = resetByte a := by
  induction m with
  | nil => rfl
  | cons p m ih =>
    obtain ⟨a', b⟩ := p
    have ha : a' ≠ a := (h (a', b) (by simp)).ne'
    rw [Memory.read_cons, if_neg ha]
    exact ih fun p hp => h p (by simp [hp])

/-! ### One write -/

theorem Memory.read_put_ne {m : Memory} {a c : Nat} {b : Byte} (h : c ≠ a) :
    Memory.read (Memory.put m a b) c = Memory.read m c := by
  unfold Memory.put
  split
  · rfl
  · rw [Memory.read_cons, if_neg h.symm]

theorem Memory.read_put_self {m : Memory} {a : Nat} {b : Byte} (h : ∀ p ∈ m, a < p.1) :
    Memory.read (Memory.put m a b) a = b := by
  unfold Memory.put
  split
  · rw [Memory.read_of_forall_lt h]; exact Eq.symm ‹_›
  · rw [Memory.read_cons, if_pos rfl]

/-- A write leaves every other address alone (20_memory.md R43). -/
theorem Memory.read_write_ne {a c : Nat} {b : Byte} (h : c ≠ a) (m : Memory) :
    Memory.read (Memory.write m a b) c = Memory.read m c := by
  induction m with
  | nil => exact Memory.read_put_ne h
  | cons p m ih =>
    obtain ⟨a', b'⟩ := p
    simp only [Memory.write]
    split
    · exact Memory.read_put_ne h
    · split
      · rename_i ha
        rw [Memory.read_put_ne h, Memory.read_cons, if_neg (by omega)]
      · rw [Memory.read_cons, Memory.read_cons, ih]

theorem Memory.wf_tail {p : Host.Cell} {m : Memory} (h : Memory.wf (p :: m)) : Memory.wf m :=
  ⟨(List.pairwise_cons.mp h.1).2, fun q hq => h.2 q (by simp [hq])⟩

theorem Memory.lt_of_wf_cons {p : Host.Cell} {m : Memory} (h : Memory.wf (p :: m)) :
    ∀ q ∈ m, p.1 < q.1 := (List.pairwise_cons.mp h.1).1

/-- A read after a write to the same address gives the byte written (20_memory.md R43, R45). -/
theorem Memory.read_write_self {m : Memory} (hm : m.wf) (a : Nat) (b : Byte) :
    Memory.read (Memory.write m a b) a = b := by
  induction m with
  | nil => exact Memory.read_put_self (by simp)
  | cons p m ih =>
    obtain ⟨a', b'⟩ := p
    have hlt := Memory.lt_of_wf_cons hm
    simp only [Memory.write]
    split
    · refine Memory.read_put_self fun q hq => ?_
      rcases List.mem_cons.mp hq with rfl | hq
      · assumption
      · exact lt_trans ‹_› (hlt q hq)
    · split
      · exact Memory.read_put_self fun q hq => by have := hlt q hq; omega
      · rw [Memory.read_cons, if_neg ‹_›]
        exact ih (Memory.wf_tail hm)

theorem Memory.put_wf {m : Memory} (hm : m.wf) {a : Nat} (b : Byte) (ha : a < Config.memSize)
    (h : ∀ p ∈ m, a < p.1) : (Memory.put m a b).wf := by
  unfold Memory.put
  split
  · exact hm
  · refine ⟨List.pairwise_cons.mpr ⟨h, hm.1⟩, fun p hp => ?_⟩
    rcases List.mem_cons.mp hp with rfl | hp
    · exact ⟨ha, ‹_›⟩
    · exact hm.2 p hp

/-- Every address a write lists is the one written or was listed before. -/
theorem Memory.mem_write {m : Memory} {a : Nat} {b : Byte} {p : Host.Cell}
    (h : p ∈ Memory.write m a b) : p = (a, b) ∨ p ∈ m := by
  have put : ∀ {m' : Memory}, p ∈ Memory.put m' a b → p = (a, b) ∨ p ∈ m' := by
    intro m' h
    unfold Memory.put at h
    split at h
    · exact .inr h
    · exact List.mem_cons.mp h
  induction m with
  | nil => exact put h
  | cons q m ih =>
    obtain ⟨a', b'⟩ := q
    simp only [Memory.write] at h
    split at h
    · exact put h
    · split at h
      · exact (put h).imp_right fun h => by simp [h]
      · rcases List.mem_cons.mp h with rfl | h
        · simp
        · exact (ih h).imp_right fun h => by simp [h]

/-- A write keeps the canonical form. -/
theorem Memory.write_wf {m : Memory} (hm : m.wf) {a : Nat} (ha : a < Config.memSize) (b : Byte) :
    (Memory.write m a b).wf := by
  induction m with
  | nil => exact Memory.put_wf hm b ha (by simp)
  | cons p m ih =>
    obtain ⟨a', b'⟩ := p
    have hlt := Memory.lt_of_wf_cons hm
    simp only [Memory.write]
    split
    · refine Memory.put_wf hm b ha fun q hq => ?_
      rcases List.mem_cons.mp hq with rfl | hq
      · assumption
      · exact lt_trans ‹_› (hlt q hq)
    · split
      · exact Memory.put_wf (Memory.wf_tail hm) b ha fun q hq => by have := hlt q hq; omega
      · have hw := ih (Memory.wf_tail hm)
        refine ⟨List.pairwise_cons.mpr ⟨fun q hq => ?_, hw.1⟩, fun q hq => ?_⟩
        · rcases Memory.mem_write hq with rfl | hq
          · simp only; omega
          · exact hlt q hq
        · rcases List.mem_cons.mp hq with rfl | hq
          · exact hm.2 _ (by simp)
          · exact hw.2 q hq

/-! ### Storing a run of bytes -/

@[simp] theorem Memory.store_nil (m : Memory) (base : Nat) : m.store base [] = m := rfl

theorem Memory.store_cons (m : Memory) (base : Nat) (b : Byte) (bs : List Byte) :
    m.store base (b :: bs) = (m.write (maskAddr base) b).store (base + 1) bs := rfl

/-- A store keeps the canonical form. -/
theorem Memory.store_wf {m : Memory} (hm : m.wf) (base : Nat) (bs : List Byte) :
    (m.store base bs).wf := by
  induction bs generalizing m base with
  | nil => exact hm
  | cons b bs ih => exact ih (Memory.write_wf hm (maskAddr_lt base) b) _

/-- A store leaves every address outside its run alone (20_memory.md R43). -/
theorem Memory.read_store_of_ne {m : Memory} {base a : Nat} {bs : List Byte}
    (h : ∀ k < bs.length, a ≠ maskAddr (base + k)) :
    Memory.read (m.store base bs) a = Memory.read m a := by
  induction bs generalizing m base with
  | nil => rfl
  | cons b bs ih =>
    have h0 : a ≠ maskAddr base := h 0 (by simp)
    rw [Memory.store_cons, ih fun k hk => ?_, Memory.read_write_ne h0]
    have := h (k + 1) (by simpa using hk)
    rwa [Nat.add_right_comm]

/-- After a store of at most 4096 bytes, offset `k` of the run reads as its byte `k`
(20_memory.md R43, R45). -/
theorem Memory.read_store_self {m : Memory} (hm : m.wf) {base k : Nat} {bs : List Byte}
    (hlen : bs.length ≤ Config.memSize) (hk : k < bs.length) :
    Memory.read (m.store base bs) (maskAddr (base + k)) = bs[k] := by
  induction bs generalizing m base k with
  | nil => simp at hk
  | cons b bs ih =>
    have hw := Memory.write_wf hm (maskAddr_lt base) b
    simp only [List.length_cons] at hlen hk
    rw [Memory.store_cons]
    cases k with
    | zero =>
      rw [Memory.read_store_of_ne fun j hj h => ?_]
      · exact Memory.read_write_self hm _ b
      · have h' : maskAddr (base + 0) = maskAddr (base + (j + 1)) := by
          rw [h]; congr 1; omega
        have := maskAddr_add_inj (by simp [Config.memSize]) (by omega) h'
        omega
    | succ k =>
      have := ih hw (base := base + 1) (k := k) (by omega) (by omega)
      rw [show base + (k + 1) = base + 1 + k by omega, this]
      rfl

/-- Canonical stores that read alike are equal. -/
theorem Memory.ext_of_wf {m m' : Memory} (hm : m.wf) (hm' : m'.wf)
    (h : ∀ a, Memory.read m a = Memory.read m' a) : m = m' := by
  induction m generalizing m' with
  | nil =>
    cases m' with
    | nil => rfl
    | cons q m' =>
      obtain ⟨a, b⟩ := q
      have := h a
      rw [Memory.read_cons, if_pos rfl] at this
      exact absurd this.symm (hm'.2 (a, b) (by simp)).2
  | cons p m ih =>
    obtain ⟨a, b⟩ := p
    have hp := (hm.2 (a, b) (by simp)).2
    have hlt := Memory.lt_of_wf_cons hm
    cases m' with
    | nil =>
      have := h a
      rw [Memory.read_cons, if_pos rfl] at this
      exact absurd this hp
    | cons q m' =>
      obtain ⟨a', b'⟩ := q
      have hq := (hm'.2 (a', b') (by simp)).2
      have hlt' := Memory.lt_of_wf_cons hm'
      have haa : a = a' := by
        rcases lt_trichotomy a a' with hl | he | hl
        · have := h a
          rw [Memory.read_cons, if_pos rfl, Memory.read_of_forall_lt] at this
          · exact absurd this hp
          · intro q hq
            rcases List.mem_cons.mp hq with rfl | hq
            · exact hl
            · exact lt_trans hl (hlt' q hq)
        · exact he
        · have := h a'
          rw [Memory.read_cons (m := m'), if_pos rfl, Memory.read_of_forall_lt] at this
          · exact absurd this.symm hq
          · intro q hq
            rcases List.mem_cons.mp hq with rfl | hq
            · exact hl
            · exact lt_trans hl (hlt q hq)
      subst haa
      have hbb : b = b' := by
        have := h a
        rwa [Memory.read_cons, if_pos rfl, Memory.read_cons, if_pos rfl] at this
      subst hbb
      congr 1
      refine ih (Memory.wf_tail hm) (Memory.wf_tail hm') fun c => ?_
      by_cases hc : a = c
      · subst hc
        rw [Memory.read_of_forall_lt hlt, Memory.read_of_forall_lt hlt']
      · have := h c
        rwa [Memory.read_cons, if_neg hc, Memory.read_cons, if_neg hc] at this

theorem Memory.wf_nil : Memory.wf [] := ⟨.nil, by simp⟩

end Sys2Proof.Machine
end

