-- ==== Sys2Proof/Laws/Ops.lean ====
section
/-! SUPPORT. One lemma per shared operation that says everything it can do: flags and VF, the call
stack, the register block of Fx55 and Fx65, stores at I, the keys, and the random byte. -/

namespace Sys2Proof.Machine

/-! ### Skips -/

/-- A skip adds 2 or 4 to PC and changes nothing else (40_flow.md R89). -/
theorem State.skipIf_eq (s : State) (c : Bool) :
    s.skipIf c = s.setPc (if c then s.pc + 4 else s.pc + 2) := by
  cases c
  · rfl
  · simp [State.skipIf, State.advance, State.setPc, BitVec.add_assoc]

/-! ### Flags (10_state.md R14, 43_display.md R142) -/

/-- The flag lands in VF whatever `x` is; Vx holds the result unless it is VF. -/
theorem State.readV_writeWithFlag (s : State) (x r : Reg) (b : Byte) (f : Bool) :
    (s.writeWithFlag x b f).readV r =
      if r = Reg.vF then flagByte f else if r = x then b else s.readV r := by
  rw [State.writeWithFlag, State.readV_writeV, State.readV_writeV]

theorem State.readV_writeCollision (s : State) (hit : Bool) (r : Reg) :
    (s.writeCollision hit).readV r = if hit = true ∧ r = Reg.vF then 1 else s.readV r := by
  cases hit <;> simp [State.writeCollision, State.readV_writeV]

@[simp] theorem State.writeWithFlag_i (s : State) (x : Reg) (b : Byte) (f : Bool) :
    (s.writeWithFlag x b f).i = s.i := rfl
@[simp] theorem State.writeWithFlag_pc (s : State) (x : Reg) (b : Byte) (f : Bool) :
    (s.writeWithFlag x b f).pc = s.pc := rfl
@[simp] theorem State.writeWithFlag_sp (s : State) (x : Reg) (b : Byte) (f : Bool) :
    (s.writeWithFlag x b f).sp = s.sp := rfl
@[simp] theorem State.writeWithFlag_stack (s : State) (x : Reg) (b : Byte) (f : Bool) :
    (s.writeWithFlag x b f).stack = s.stack := rfl
@[simp] theorem State.writeWithFlag_dt (s : State) (x : Reg) (b : Byte) (f : Bool) :
    (s.writeWithFlag x b f).dt = s.dt := rfl
@[simp] theorem State.writeWithFlag_st (s : State) (x : Reg) (b : Byte) (f : Bool) :
    (s.writeWithFlag x b f).st = s.st := rfl
@[simp] theorem State.writeWithFlag_mem (s : State) (x : Reg) (b : Byte) (f : Bool) :
    (s.writeWithFlag x b f).mem = s.mem := rfl
@[simp] theorem State.writeWithFlag_fb (s : State) (x : Reg) (b : Byte) (f : Bool) :
    (s.writeWithFlag x b f).fb = s.fb := rfl
@[simp] theorem State.writeWithFlag_dirty (s : State) (x : Reg) (b : Byte) (f : Bool) :
    (s.writeWithFlag x b f).dirty = s.dirty := rfl
@[simp] theorem State.writeWithFlag_key (s : State) (x : Reg) (b : Byte) (f : Bool) :
    (s.writeWithFlag x b f).key = s.key := rfl
@[simp] theorem State.writeWithFlag_halt (s : State) (x : Reg) (b : Byte) (f : Bool) :
    (s.writeWithFlag x b f).halt = s.halt := rfl
@[simp] theorem State.writeWithFlag_env (s : State) (x : Reg) (b : Byte) (f : Bool) :
    (s.writeWithFlag x b f).env = s.env := rfl

@[simp] theorem State.writeCollision_i (s : State) (hit : Bool) :
    (s.writeCollision hit).i = s.i := by cases hit <;> rfl
@[simp] theorem State.writeCollision_pc (s : State) (hit : Bool) :
    (s.writeCollision hit).pc = s.pc := by cases hit <;> rfl
@[simp] theorem State.writeCollision_sp (s : State) (hit : Bool) :
    (s.writeCollision hit).sp = s.sp := by cases hit <;> rfl
@[simp] theorem State.writeCollision_stack (s : State) (hit : Bool) :
    (s.writeCollision hit).stack = s.stack := by cases hit <;> rfl
@[simp] theorem State.writeCollision_dt (s : State) (hit : Bool) :
    (s.writeCollision hit).dt = s.dt := by cases hit <;> rfl
@[simp] theorem State.writeCollision_st (s : State) (hit : Bool) :
    (s.writeCollision hit).st = s.st := by cases hit <;> rfl
@[simp] theorem State.writeCollision_mem (s : State) (hit : Bool) :
    (s.writeCollision hit).mem = s.mem := by cases hit <;> rfl
@[simp] theorem State.writeCollision_fb (s : State) (hit : Bool) :
    (s.writeCollision hit).fb = s.fb := by cases hit <;> rfl
@[simp] theorem State.writeCollision_dirty (s : State) (hit : Bool) :
    (s.writeCollision hit).dirty = s.dirty := by cases hit <;> rfl
@[simp] theorem State.writeCollision_key (s : State) (hit : Bool) :
    (s.writeCollision hit).key = s.key := by cases hit <;> rfl
@[simp] theorem State.writeCollision_halt (s : State) (hit : Bool) :
    (s.writeCollision hit).halt = s.halt := by cases hit <;> rfl
@[simp] theorem State.writeCollision_env (s : State) (hit : Bool) :
    (s.writeCollision hit).env = s.env := by cases hit <;> rfl
@[simp] theorem State.writeWithFlag_pixel (s : State) (x : Reg) (b : Byte) (f : Bool)
    (row : Fin 32) (col : Fin 64) : (s.writeWithFlag x b f).pixel row col = s.pixel row col := rfl
@[simp] theorem State.writeCollision_pixel (s : State) (hit : Bool) (row : Fin 32) (col : Fin 64) :
    (s.writeCollision hit).pixel row col = s.pixel row col := by cases hit <;> rfl

/-! ### The call stack (10_state.md R20) -/

theorem State.push_full {s : State} (h : s.sp = 15) (w : Word) : s.push w = none := by
  simp [State.push, h, Config.stackLimit]

theorem State.push_room {s : State} (h : s.sp ≠ 15) (w : Word) :
    s.push w = some { s with sp := s.sp + 1, stack := s.stack.set (s.sp + 1 : Fin 16) w } := by
  have : s.sp.val ≠ Config.stackLimit := fun e => h (Fin.ext e)
  rw [State.push, if_neg this]

theorem State.pop_empty {s : State} (h : s.sp = 0) : s.pop = none := by
  rw [State.pop, if_pos h]

theorem State.pop_held {s : State} (h : s.sp ≠ 0) :
    s.pop = some (s.stack[s.sp], { s with sp := s.sp - 1 }) := by
  rw [State.pop, if_neg h]

/-- The pointer after a push, as a number. -/
theorem sp_add_one_val {sp : Fin 16} (h : sp ≠ 15) : (sp + 1).val = sp.val + 1 := by
  have h15 : sp.val ≠ 15 := fun e => h (Fin.ext e)
  have := sp.isLt
  rw [Fin.val_add]
  simp only [Fin.val_one]
  omega

/-- The pointer after a pop, as a number. -/
theorem sp_sub_one_val {sp : Fin 16} (h : sp ≠ 0) : (sp - 1).val = sp.val - 1 := by
  have h0 : sp.val ≠ 0 := fun e => h (Fin.ext e)
  have := sp.isLt
  rw [Fin.val_sub]
  simp only [Fin.val_one]
  omega

/-! ### Registers as a block (42_index_memory.md R128, R129) -/

@[simp] theorem State.regBlock_length (s : State) (x : Reg) : (s.regBlock x).length = x.val + 1 := by
  simp [State.regBlock]

theorem State.regBlock_getElem (s : State) (x : Reg) {k : Nat} (h : k < (s.regBlock x).length) :
    (s.regBlock x)[k] = s.readV (blockReg k) := by
  simp [State.regBlock]

theorem blockReg_val {k : Nat} (h : k < 16) : (blockReg k).val = k := by
  simp [blockReg, Nat.mod_eq_of_lt h]

@[simp] theorem blockReg_self (r : Reg) : blockReg r.val = r := Fin.ext (blockReg_val r.isLt)

/-- A load from I writes the first registers from memory and no other register. -/
theorem State.readV_loadFromI (s : State) {count : Nat} (hc : count ≤ 16) (r : Reg) :
    (s.loadFromI count).readV r = if r.val < count then s.byteAtI r.val else s.readV r := by
  induction count with
  | zero => simp [State.loadFromI]
  | succ n ih =>
    have ih := ih (by omega)
    rw [State.loadFromI] at ih ⊢
    rw [List.range_succ, List.foldl_append, List.foldl_cons, List.foldl_nil, State.readV_writeV, ih]
    by_cases hr : r = blockReg n
    · subst hr
      rw [if_pos rfl, blockReg_val (by omega), if_pos (by omega)]
    · have : r.val ≠ n := fun e => hr (Fin.ext (by rw [blockReg_val (by omega), e]))
      rw [if_neg hr]
      congr 1
      simp only [eq_iff_iff]
      omega

/-- A load from I changes general registers only. -/
theorem State.loadFromI_eq (s : State) (count : Nat) :
    s.loadFromI count = { s with v := (s.loadFromI count).v } := by
  rw [State.loadFromI]
  generalize List.range count = ks
  suffices h : ∀ t : State, { s with v := t.v } = t →
      ks.foldl (fun t k => t.writeV (blockReg k) (s.byteAtI k)) t =
        { s with v := (ks.foldl (fun t k => t.writeV (blockReg k) (s.byteAtI k)) t).v } from h s rfl
  induction ks with
  | nil => exact fun t ht => ht.symm
  | cons k ks ih => exact fun t ht => ih _ (by rw [← ht]; rfl)

@[simp] theorem State.loadFromI_i (s : State) (count : Nat) : (s.loadFromI count).i = s.i := by
  rw [State.loadFromI_eq]
@[simp] theorem State.loadFromI_pc (s : State) (count : Nat) : (s.loadFromI count).pc = s.pc := by
  rw [State.loadFromI_eq]
@[simp] theorem State.loadFromI_sp (s : State) (count : Nat) : (s.loadFromI count).sp = s.sp := by
  rw [State.loadFromI_eq]
@[simp] theorem State.loadFromI_stack (s : State) (count : Nat) : (s.loadFromI count).stack = s.stack := by
  rw [State.loadFromI_eq]
@[simp] theorem State.loadFromI_dt (s : State) (count : Nat) : (s.loadFromI count).dt = s.dt := by
  rw [State.loadFromI_eq]
@[simp] theorem State.loadFromI_st (s : State) (count : Nat) : (s.loadFromI count).st = s.st := by
  rw [State.loadFromI_eq]
@[simp] theorem State.loadFromI_mem (s : State) (count : Nat) : (s.loadFromI count).mem = s.mem := by
  rw [State.loadFromI_eq]
@[simp] theorem State.loadFromI_fb (s : State) (count : Nat) : (s.loadFromI count).fb = s.fb := by
  rw [State.loadFromI_eq]
@[simp] theorem State.loadFromI_dirty (s : State) (count : Nat) : (s.loadFromI count).dirty = s.dirty := by
  rw [State.loadFromI_eq]
@[simp] theorem State.loadFromI_key (s : State) (count : Nat) : (s.loadFromI count).key = s.key := by
  rw [State.loadFromI_eq]
@[simp] theorem State.loadFromI_halt (s : State) (count : Nat) : (s.loadFromI count).halt = s.halt := by
  rw [State.loadFromI_eq]
@[simp] theorem State.loadFromI_env (s : State) (count : Nat) : (s.loadFromI count).env = s.env := by
  rw [State.loadFromI_eq]
@[simp] theorem State.loadFromI_pixel (s : State) (count : Nat) (row : Fin 32) (col : Fin 64) :
    (s.loadFromI count).pixel row col = s.pixel row col := by
  rw [State.loadFromI_eq]; rfl

/-! ### Stores at I (42_index_memory.md R121) -/

/-- Byte `k` of a store at I lies at the effective address of offset `k`. -/
theorem State.storeAtI_read_self {s : State} (hm : s.mem.wf) {bs : List Byte}
    (hlen : bs.length ≤ 16) {k : Nat} (hk : k < bs.length) :
    (s.storeAtI bs).mem.read (s.effAddr k) = bs[k] :=
  Memory.read_store_self hm (by simp only [Config.memSize]; omega) hk

/-- A store at I leaves every other address alone. -/
theorem State.storeAtI_read_outside {s : State} {bs : List Byte} {a : Nat}
    (h : ∀ k < bs.length, a ≠ s.effAddr k) : (s.storeAtI bs).mem.read a = s.mem.read a :=
  Memory.read_store_of_ne h

@[simp] theorem bcdDigits_length (b : Byte) : (bcdDigits b).length = 3 := rfl

/-! ### Keys (44_keypad_timers.md R152, R153) -/

theorem firstPressed_none {key : Vector Bool 16} (h : ∀ k : Fin 16, key[k] = false) :
    firstPressed key = none := by
  simp [firstPressed, h]

/-- The least pressed index is the one found. -/
theorem firstPressed_least {key : Vector Bool 16} {k : Fin 16} (hk : key[k] = true)
    (hl : ∀ j : Fin 16, j < k → key[j] = false) : firstPressed key = some k := by
  rw [firstPressed, List.find?_eq_some_iff_getElem]
  refine ⟨hk, k.val, by simp, by simp, fun j hj => ?_⟩
  have := hl ⟨j, by omega⟩ hj
  simpa using this

theorem State.keyNamed_inside {s : State} {b : Byte} (h : b.toNat < 16) :
    s.keyNamed b = some (s.key[b.toNat]'h) := by
  rw [State.keyNamed, dif_pos h]

theorem State.keyNamed_outside {s : State} {b : Byte} (h : 15 < b.toNat) : s.keyNamed b = none := by
  rw [State.keyNamed, dif_neg (by omega)]

/-! ### The random byte (41_alu.md R114) -/

/-- Drawing the random byte changes no state of the block. -/
theorem State.drawRnd_snd_eq (s : State) : s.drawRnd.2 = { s with env := s.drawRnd.2.env } := by
  rw [State.drawRnd]
  split <;> rfl

/-- The byte drawn is the one the host named, if it named one. -/
theorem State.drawRnd_named {s : State} {r : Byte} (h : s.env.rndArg = some r) :
    s.drawRnd = (r, s) := by
  rw [State.drawRnd, h]

end Sys2Proof.Machine
end

