-- ==== Sys2Proof/Laws/Frames.lean ====
section
/-! SUPPORT. Frames in the terms of Safety.lean: what the shared ways of ending an instruction change
and keep. -/

namespace Sys2Proof.Machine

/-- A frame holds when every piece not named is the very same. -/
theorem State.keepsAllBut_of_eq {s t : State} {changed : List Part}
    (h : ∀ p, p ∉ changed → match p with
      | .v => t.v = s.v | .i => t.i = s.i | .pc => t.pc = s.pc | .sp => t.sp = s.sp
      | .stack => t.stack = s.stack | .dt => t.dt = s.dt | .st => t.st = s.st
      | .mem => t.mem = s.mem | .fb => t.fb = s.fb | .dirty => t.dirty = s.dirty
      | .key => t.key = s.key | .halt => t.halt = s.halt | .env => t.env = s.env) :
    s.KeepsAllBut t changed := by
  intro p hp
  have := h p hp
  cases p <;> simp_all [State.Keeps, State.readV, State.pixel]

/-- Advancing and writing one register. -/
theorem State.wroteReg_advance_writeV (s : State) (x : Reg) (b : Byte) :
    s.WroteReg (s.advance.writeV x b) x b := by
  refine ⟨by simp, fun r hr => ?_, rfl, State.keepsAllBut_of_eq fun p hp => ?_⟩
  · have : r ≠ x := by simpa using hr
    simp [State.readV_writeV_ne _ this]
  · cases p <;> simp_all

/-- Advancing and writing a register and then a flag (10_state.md R14). -/
theorem State.wroteRegThenFlag_advance (s : State) (x : Reg) (b : Byte) (f : Bool) :
    s.WroteRegThenFlag (s.advance.writeWithFlag x b f) x b (flagByte f) := by
  refine ⟨fun h => ?_, ?_, fun r hr => ?_, rfl, State.keepsAllBut_of_eq fun p hp => ?_⟩
  · rw [State.readV_writeWithFlag, if_neg h, if_pos rfl]
  · rw [State.readV_writeWithFlag, if_pos rfl]
  · simp only [List.mem_cons, List.not_mem_nil, or_false, not_or] at hr
    rw [State.readV_writeWithFlag, if_neg hr.2, if_neg hr.1]
    simp
  · cases p <;> simp_all

/-- A skip changes PC only (40_flow.md R89). -/
theorem State.keepsAllBut_skipIf (s : State) (c : Bool) : s.KeepsAllBut (s.skipIf c) [.pc] := by
  rw [State.skipIf_eq]
  exact State.keepsAllBut_of_eq fun p hp => by cases p <;> simp_all

/-- Writing PC changes PC only. -/
theorem State.keepsAllBut_setPc (s : State) (w : Word) : s.KeepsAllBut (s.setPc w) [.pc] :=
  State.keepsAllBut_of_eq fun p hp => by cases p <;> simp_all

/-- Taking a fault changes the halt latch only (60_exceptions.md R175). -/
theorem State.keepsAllBut_latchFault (s : State) (c : FaultCause) (w : Word) :
    s.KeepsAllBut (s.latchFault c w) [.halt] :=
  State.keepsAllBut_of_eq fun p hp => by cases p <;> simp_all

end Sys2Proof.Machine
end

