-- ==== Sys2Proof/Laws/Exec.lean ====
section
/-! SUPPORT. What one instruction can do, said once for all 34: it answers, when it takes a fault and
what that leaves, and what becomes of memory, of stack entry 0 and of the host's side. Proofs about a
step cite these and do not unfold `exec`. -/

namespace Sys2Proof.Machine

/-! ### The instructions that can fault -/

theorem execRet_empty {s : State} (h : s.sp = 0) :
    execRet s = .next (s.latchFault .stackUnderflow (encode .ret)) := by
  rw [execRet, State.pop_empty h]

theorem execRet_held {s : State} (h : s.sp ≠ 0) :
    execRet s = .next (State.setPc { s with sp := s.sp - 1 } s.stack[s.sp]) := by
  rw [execRet, State.pop_held h]

theorem execCallNnn_full {s : State} (h : s.sp = 15) (nnn : Imm12) :
    execCallNnn nnn s = .next (s.latchFault .stackOverflow (encode (.callNnn nnn))) := by
  rw [execCallNnn, State.push_full h]

theorem execCallNnn_room {s : State} (h : s.sp ≠ 15) (nnn : Imm12) :
    execCallNnn nnn s = .next (State.setPc
      { s with sp := s.sp + 1, stack := s.stack.set (s.sp + 1 : Fin 16) (s.pc + 2) }
      (zextNnn nnn)) := by
  rw [execCallNnn, State.push_room h]; rfl

theorem execSkpVx_outside {s : State} {x : Reg} (h : 15 < (s.readV x).toNat) :
    execSkpVx x s = .next (s.latchFault .keyIndexRange (encode (.skpVx x))) := by
  rw [execSkpVx, State.keyNamed_outside h]

theorem execSkpVx_inside {s : State} {x : Reg} (h : (s.readV x).toNat < 16) :
    execSkpVx x s = .next (s.skipIf (s.key[(s.readV x).toNat]'h)) := by
  rw [execSkpVx, State.keyNamed_inside h]

theorem execSknpVx_outside {s : State} {x : Reg} (h : 15 < (s.readV x).toNat) :
    execSknpVx x s = .next (s.latchFault .keyIndexRange (encode (.sknpVx x))) := by
  rw [execSknpVx, State.keyNamed_outside h]

theorem execSknpVx_inside {s : State} {x : Reg} (h : (s.readV x).toNat < 16) :
    execSknpVx x s = .next (s.skipIf (!s.key[(s.readV x).toNat]'h)) := by
  rw [execSknpVx, State.keyNamed_inside h]

/-! ### The wait for a key -/

theorem execLdVxK_stall {s : State} (h : firstPressed s.key = none) (x : Reg) :
    execLdVxK x s = .next s := by
  rw [execLdVxK, h]

theorem execLdVxK_pressed {s : State} {k : Fin 16} (h : firstPressed s.key = some k) (x : Reg) :
    execLdVxK x s = .next (s.advance.writeV x (BitVec.ofNat 8 k.val)) := by
  rw [execLdVxK, h]

/-! ### All instructions -/

/-- An instruction that raises a fault latches it and does nothing else (60_exceptions.md R175). -/
theorem exec_of_fault {i : Instr} {s : State} {c : FaultCause} (h : faultOfInstr i s = some c) :
    exec i s = .next (s.latchFault c (encode i)) := by
  cases i <;> simp only [faultOfInstr, reduceCtorEq] at h
  case ret =>
    split at h
    · cases h; exact execRet_empty ‹_›
    · cases h
  case callNnn nnn =>
    split at h
    · cases h; exact execCallNnn_full ‹_› nnn
    · cases h
  case skpVx x =>
    split at h
    · cases h; exact execSkpVx_outside ‹_›
    · cases h
  case sknpVx x =>
    split at h
    · cases h; exact execSknpVx_outside ‹_›
    · cases h

/-- What an instruction that raises no fault leaves behind. -/
structure Ran (s t : State) : Prop where
  halt : t.halt = s.halt
  key : t.key = s.key
  slotZero : t.stack[0] = s.stack[0]
  mem : t.mem = s.mem ∨ ∃ bs : List Byte, bs.length ≤ 16 ∧ t.mem = s.mem.store s.i.toNat bs
  env : t.env = { s.env with rndCount := t.env.rndCount }

/-- Only registers, PC, I, timers and the display differ: memory, stack, keys, latch and host's side
are the very same. -/
theorem Ran.of_eq {s t : State} (h1 : t.halt = s.halt) (h2 : t.key = s.key)
    (h3 : t.stack = s.stack) (h4 : t.mem = s.mem) (h5 : t.env = s.env) : Ran s t :=
  ⟨h1, h2, by rw [h3], .inl h4, by rw [h5]⟩

theorem Ran.skipIf (s : State) (c : Bool) : Ran s (s.skipIf c) := by
  rw [State.skipIf_eq]; exact .of_eq rfl rfl rfl rfl rfl

/-- An instruction that raises no fault answers a next state it has run to. -/
theorem exec_of_no_fault {i : Instr} {s : State} (h : faultOfInstr i s = none) :
    ∃ t, exec i s = .next t ∧ Ran s t := by
  cases i
  case ret =>
    have h0 : s.sp ≠ 0 := fun e => by simp [faultOfInstr, e] at h
    exact ⟨_, execRet_held h0, .of_eq rfl rfl rfl rfl rfl⟩
  case callNnn nnn =>
    have h15 : s.sp ≠ 15 := fun e => by simp [faultOfInstr, e] at h
    refine ⟨_, execCallNnn_room h15 nnn, rfl, rfl, ?_, .inl rfl, rfl⟩
    have := sp_add_one_val h15
    simp only [State.setPc_stack]
    exact Vector.getElem_set_ne _ _ (by omega)
  case skpVx x =>
    have hk : (s.readV x).toNat < 16 := by
      by_contra hc; simp [faultOfInstr, show 15 < (s.readV x).toNat by omega] at h
    exact ⟨_, execSkpVx_inside hk, Ran.skipIf s _⟩
  case sknpVx x =>
    have hk : (s.readV x).toNat < 16 := by
      by_contra hc; simp [faultOfInstr, show 15 < (s.readV x).toNat by omega] at h
    exact ⟨_, execSknpVx_inside hk, Ran.skipIf s _⟩
  case ldVxK x =>
    cases hk : firstPressed s.key with
    | none => exact ⟨_, execLdVxK_stall hk x, .of_eq rfl rfl rfl rfl rfl⟩
    | some k => exact ⟨_, execLdVxK_pressed hk x, .of_eq rfl rfl rfl rfl rfl⟩
  case rndVxKk x kk =>
    refine ⟨_, rfl, ?_, ?_, ?_, .inl ?_, ?_⟩ <;> rw [State.drawRnd] <;> split <;> rfl
  case ldBVx x => exact ⟨_, rfl, rfl, rfl, rfl, .inr ⟨bcdDigits (s.readV x), by simp, rfl⟩, rfl⟩
  case ldMemVx x => exact ⟨_, rfl, rfl, rfl, rfl, .inr ⟨s.regBlock x, by simp, rfl⟩, rfl⟩
  case ldVxMem x => exact ⟨_, rfl, .of_eq (by simp) (by simp) (by simp) (by simp) (by simp)⟩
  case drwVxVyN x y n => exact ⟨_, rfl, .of_eq (by simp) (by simp) (by simp) (by simp) (by simp)⟩
  case seVxKk x kk => exact ⟨_, rfl, Ran.skipIf s _⟩
  case sneVxKk x kk => exact ⟨_, rfl, Ran.skipIf s _⟩
  case seVxVy x y => exact ⟨_, rfl, Ran.skipIf s _⟩
  case sneVxVy x y => exact ⟨_, rfl, Ran.skipIf s _⟩
  all_goals exact ⟨_, rfl, .of_eq rfl rfl rfl rfl rfl⟩

/-- What an instruction that ran leaves of canonical memory. -/
theorem Ran.mem_wf {s t : State} (h : Ran s t) (hm : s.mem.wf) : t.mem.wf := by
  rcases h.mem with e | ⟨bs, _, e⟩
  · rw [e]; exact hm
  · rw [e]; exact Memory.store_wf hm _ _

end Sys2Proof.Machine
end

