-- ==== Sys2Proof/Laws/PerInstr.lean ====
section
/-! SUPPORT. Statements about every instruction as syntax, one lemma per constructor. -/

namespace Sys2Proof.Laws.RowListed

/-- The instruction's opcode row stands in the opcode map, and its match has no bit outside its mask
(30_encoding.md R64). -/
def Statement (i : Instr) : Prop :=
  i.row ∈ opcodeTable ∧ i.row.value &&& i.row.mask = i.row.value

/-- A statement about an instruction is one about its row alone. -/
theorem of_row (i : Instr) (r : OpcodeRow) (h : i.row = r)
    (hr : r ∈ opcodeTable ∧ r.value &&& r.mask = r.value) : Statement i := by
  subst h; exact hr

theorem cls : Statement .cls :=
  of_row .cls ⟨0x00E0, 0xFFFF⟩ rfl (by decide)

theorem ret : Statement .ret :=
  of_row .ret ⟨0x00EE, 0xFFFF⟩ rfl (by decide)

theorem jpNnn (nnn : Imm12) : Statement (.jpNnn nnn) :=
  of_row (.jpNnn nnn) ⟨0x1000, 0xF000⟩ rfl (by decide)

theorem callNnn (nnn : Imm12) : Statement (.callNnn nnn) :=
  of_row (.callNnn nnn) ⟨0x2000, 0xF000⟩ rfl (by decide)

theorem seVxKk (x : Reg) (kk : Byte) : Statement (.seVxKk x kk) :=
  of_row (.seVxKk x kk) ⟨0x3000, 0xF000⟩ rfl (by decide)

theorem sneVxKk (x : Reg) (kk : Byte) : Statement (.sneVxKk x kk) :=
  of_row (.sneVxKk x kk) ⟨0x4000, 0xF000⟩ rfl (by decide)

theorem seVxVy (x y : Reg) : Statement (.seVxVy x y) :=
  of_row (.seVxVy x y) ⟨0x5000, 0xF00F⟩ rfl (by decide)

theorem ldVxKk (x : Reg) (kk : Byte) : Statement (.ldVxKk x kk) :=
  of_row (.ldVxKk x kk) ⟨0x6000, 0xF000⟩ rfl (by decide)

theorem addVxKk (x : Reg) (kk : Byte) : Statement (.addVxKk x kk) :=
  of_row (.addVxKk x kk) ⟨0x7000, 0xF000⟩ rfl (by decide)

theorem ldVxVy (x y : Reg) : Statement (.ldVxVy x y) :=
  of_row (.ldVxVy x y) ⟨0x8000, 0xF00F⟩ rfl (by decide)

theorem orVxVy (x y : Reg) : Statement (.orVxVy x y) :=
  of_row (.orVxVy x y) ⟨0x8001, 0xF00F⟩ rfl (by decide)

theorem andVxVy (x y : Reg) : Statement (.andVxVy x y) :=
  of_row (.andVxVy x y) ⟨0x8002, 0xF00F⟩ rfl (by decide)

theorem xorVxVy (x y : Reg) : Statement (.xorVxVy x y) :=
  of_row (.xorVxVy x y) ⟨0x8003, 0xF00F⟩ rfl (by decide)

theorem addVxVy (x y : Reg) : Statement (.addVxVy x y) :=
  of_row (.addVxVy x y) ⟨0x8004, 0xF00F⟩ rfl (by decide)

theorem subVxVy (x y : Reg) : Statement (.subVxVy x y) :=
  of_row (.subVxVy x y) ⟨0x8005, 0xF00F⟩ rfl (by decide)

theorem shrVx (x y : Reg) : Statement (.shrVx x y) :=
  of_row (.shrVx x y) ⟨0x8006, 0xF00F⟩ rfl (by decide)

theorem subnVxVy (x y : Reg) : Statement (.subnVxVy x y) :=
  of_row (.subnVxVy x y) ⟨0x8007, 0xF00F⟩ rfl (by decide)

theorem shlVx (x y : Reg) : Statement (.shlVx x y) :=
  of_row (.shlVx x y) ⟨0x800E, 0xF00F⟩ rfl (by decide)

theorem sneVxVy (x y : Reg) : Statement (.sneVxVy x y) :=
  of_row (.sneVxVy x y) ⟨0x9000, 0xF00F⟩ rfl (by decide)

theorem ldINnn (nnn : Imm12) : Statement (.ldINnn nnn) :=
  of_row (.ldINnn nnn) ⟨0xA000, 0xF000⟩ rfl (by decide)

theorem jpV0Nnn (nnn : Imm12) : Statement (.jpV0Nnn nnn) :=
  of_row (.jpV0Nnn nnn) ⟨0xB000, 0xF000⟩ rfl (by decide)

theorem rndVxKk (x : Reg) (kk : Byte) : Statement (.rndVxKk x kk) :=
  of_row (.rndVxKk x kk) ⟨0xC000, 0xF000⟩ rfl (by decide)

theorem drwVxVyN (x y : Reg) (n : Nat) : Statement (.drwVxVyN x y n) :=
  of_row (.drwVxVyN x y n) ⟨0xD000, 0xF000⟩ rfl (by decide)

theorem skpVx (x : Reg) : Statement (.skpVx x) :=
  of_row (.skpVx x) ⟨0xE09E, 0xF0FF⟩ rfl (by decide)

theorem sknpVx (x : Reg) : Statement (.sknpVx x) :=
  of_row (.sknpVx x) ⟨0xE0A1, 0xF0FF⟩ rfl (by decide)

theorem ldVxDt (x : Reg) : Statement (.ldVxDt x) :=
  of_row (.ldVxDt x) ⟨0xF007, 0xF0FF⟩ rfl (by decide)

theorem ldVxK (x : Reg) : Statement (.ldVxK x) :=
  of_row (.ldVxK x) ⟨0xF00A, 0xF0FF⟩ rfl (by decide)

theorem ldDtVx (x : Reg) : Statement (.ldDtVx x) :=
  of_row (.ldDtVx x) ⟨0xF015, 0xF0FF⟩ rfl (by decide)

theorem ldStVx (x : Reg) : Statement (.ldStVx x) :=
  of_row (.ldStVx x) ⟨0xF018, 0xF0FF⟩ rfl (by decide)

theorem addIVx (x : Reg) : Statement (.addIVx x) :=
  of_row (.addIVx x) ⟨0xF01E, 0xF0FF⟩ rfl (by decide)

theorem ldFVx (x : Reg) : Statement (.ldFVx x) :=
  of_row (.ldFVx x) ⟨0xF029, 0xF0FF⟩ rfl (by decide)

theorem ldBVx (x : Reg) : Statement (.ldBVx x) :=
  of_row (.ldBVx x) ⟨0xF033, 0xF0FF⟩ rfl (by decide)

theorem ldMemVx (x : Reg) : Statement (.ldMemVx x) :=
  of_row (.ldMemVx x) ⟨0xF055, 0xF0FF⟩ rfl (by decide)

theorem ldVxMem (x : Reg) : Statement (.ldVxMem x) :=
  of_row (.ldVxMem x) ⟨0xF065, 0xF0FF⟩ rfl (by decide)

end Sys2Proof.Laws.RowListed
end

