-- ==== Sys2Proof/Laws/Step.lean ====
section
/-! SUPPORT. What one event can do, said once: a STEP that faults, a STEP that runs, and each of the
host's events; and one step of the machine as one event. -/

namespace Sys2Proof.Machine

/-! ### STEP -/

@[simp] theorem faultOfInstr_beginStep (i : Instr) (s : State) (r : Option Byte) :
    faultOfInstr i (s.beginStep r) = faultOfInstr i s := by
  cases i <;> rfl

/-- A halted engine ignores STEP (60_exceptions.md R176). -/
theorem stepEvent_halted {s : State} (h : s.halt ≠ .running) (r : Option Byte) :
    stepEvent r s = .next s := by
  cases e : s.halt with
  | running => exact absurd e h
  | halted c p w => rw [stepEvent, e]

theorem stepEvent_running {s : State} (h : s.halt = .running) (r : Option Byte) :
    stepEvent r s = endResult (fetchExec (s.beginStep r)) := by
  rw [stepEvent, h]

/-- A running STEP on an illegal word. -/
theorem stepEvent_illegal {s : State} (h : s.halt = .running) {e : DecodeError}
    (hd : decode s.fetchWord = .error e) (r : Option Byte) :
    stepEvent r s =
      .next ((s.beginStep r).latchFault .illegalOpcode s.fetchWord).endStep := by
  rw [stepEvent_running h, fetchExec, State.beginStep_fetchWord, hd]
  rfl

/-- A running STEP on an instruction. -/
theorem stepEvent_decoded {s : State} (h : s.halt = .running) {i : Instr}
    (hd : decode s.fetchWord = .ok i) (r : Option Byte) :
    stepEvent r s = endResult (exec i (s.beginStep r)) := by
  rw [stepEvent_running h, fetchExec, State.beginStep_fetchWord, hd]

/-- A running STEP answers: it latches the fault the state is about to take, or it runs the decoded
instruction. -/
theorem stepEvent_cases {s : State} (h : s.halt = .running) (r : Option Byte) :
    (∃ c w, s.faultOfStep = some c ∧
      (∀ i, decode s.fetchWord = .ok i → w = encode i) ∧
      ((∃ e, decode s.fetchWord = .error e) → w = s.fetchWord) ∧
      stepEvent r s = .next ((s.beginStep r).latchFault c w).endStep) ∨
    (s.faultOfStep = none ∧ ∃ i t, decode s.fetchWord = .ok i ∧
      exec i (s.beginStep r) = .next t ∧ Ran (s.beginStep r) t ∧
      stepEvent r s = .next t.endStep) := by
  cases hd : decode s.fetchWord with
  | error e =>
    refine .inl ⟨.illegalOpcode, s.fetchWord, ?_, ?_, fun _ => rfl, stepEvent_illegal h hd r⟩
    · rw [State.faultOfStep, hd]
    · intro i hi; cases hi
  | ok i =>
    have hf : s.faultOfStep = faultOfInstr i s := by rw [State.faultOfStep, hd]
    cases hc : faultOfInstr i s with
    | some c =>
      refine .inl ⟨c, encode i, hf.trans hc, fun j hj => by cases hj; rfl, ?_, ?_⟩
      · rintro ⟨e, he⟩; cases he
      · rw [stepEvent_decoded h hd, exec_of_fault (by rw [faultOfInstr_beginStep, hc])]
        rfl
    | none =>
      obtain ⟨t, ht, hr⟩ := exec_of_no_fault (i := i) (s := s.beginStep r)
        (by rw [faultOfInstr_beginStep, hc])
      refine .inr ⟨hf.trans hc, i, t, rfl, ht, hr, ?_⟩
      rw [stepEvent_decoded h hd, ht]
      rfl

/-! ### LOAD -/

theorem loadEvent_late {s : State} (h : s.env.stepped = true ∨ s.env.loadReport ≠ none)
    (image : List Byte) : loadEvent image s = .refused .loadOutOfOrder := by
  rw [loadEvent, if_pos]
  rcases h with h | h
  · simp [h]
  · simp [Option.isSome_iff_ne_none.mpr h]

theorem loadEvent_accepted {s : State} (h : s.env.stepped = false) (h' : s.env.loadReport = none)
    {image : List Byte} (hl : image.length ≤ Config.loadLimit) :
    loadEvent image s =
      .next (State.report { s with mem := s.mem.store Config.resetPc.toNat image } .accepted) := by
  rw [loadEvent, if_neg (by simp [h, h']), if_pos hl]

theorem loadEvent_overflow {s : State} (h : s.env.stepped = false) (h' : s.env.loadReport = none)
    {image : List Byte} (hl : Config.loadLimit < image.length) :
    loadEvent image s = .next (s.report .loadOverflow) := by
  rw [loadEvent, if_neg (by simp [h, h']), if_neg (by omega)]

/-! ### RESET -/

@[simp] theorem resetEvent_mem (font : Vector Byte 80) (s : State) :
    (resetEvent font s).mem = Memory.store [] 0 font.toList := rfl

/-- RESET leaves canonical memory. -/
theorem resetEvent_mem_wf (font : Vector Byte 80) (s : State) : (resetEvent font s).mem.wf :=
  Memory.store_wf Memory.wf_nil _ _

/-! ### The step -/

theorem step_free {s : State} (h : s.env.agenda = []) : step s = stepEvent none s := by
  rw [step, nextEvent, h]

theorem step_agenda {s : State} {e : Event} {rest : List Event} (h : s.env.agenda = e :: rest) :
    step s = applyEvent e { s with env := { s.env with agenda := rest } } := by
  rw [step, nextEvent, h]

/-- With no host event next but a STEP, a step of a running machine is the decoded instruction on the same
block, with some bookkeeping whose agenda has lost that event. -/
theorem step_of_onlySteps {s : State} (h : s.halt = .running)
    (ha : OnlySteps (s.env.agenda.take 1)) {i : Instr} (hd : decode s.fetchWord = .ok i) :
    ∃ env : Env, env.agenda = s.env.agenda.tail ∧
      step s = endResult (exec i { s with env := env }) := by
  cases hs : s.env.agenda with
  | nil =>
    exact ⟨{ s.env with stepped := true, rndArg := none }, hs,
      (step_free hs).trans (stepEvent_decoded h hd none)⟩
  | cons e rest =>
    obtain ⟨rnd, rfl⟩ := ha e (by simp [hs])
    exact ⟨{ s.env with agenda := rest, stepped := true, rndArg := some rnd }, rfl,
      (step_agenda hs).trans (stepEvent_decoded (s := { s with env := { s.env with agenda := rest } })
        h hd (some rnd))⟩

/-- A run whose first step answers goes on from the answer. -/
theorem run_succ_of_step {M : Host.Core} {s t : M.State} (h : M.step s = .next t) (k : Nat) :
    M.run (k + 1) s = M.run k t := by
  simp only [Host.Core.run, h]

/-- The same of this machine. -/
theorem run_succ {s t : State} (h : step s = .next t) (k : Nat) :
    Sys2Proof.core.run (k + 1) s = Sys2Proof.core.run k t :=
  run_succ_of_step (M := Sys2Proof.core) h k

end Sys2Proof.Machine
end

