-- ==== Sys2Proof/Laws/Words.lean ====
section
/-! SUPPORT. The encoder's sums are the ORs of shifted fields in which the spec writes its encodings
(spec/40_flow.md to spec/44_keypad_timers.md, the line "Encoding" of each rule). -/

namespace Sys2Proof.Machine

/-- The number of a field placed at `lo`, with `p` the power of two it is scaled by. -/
theorem fieldAt_toNat {value lo p : Nat} (hp : 2 ^ lo = p) (h : value * p < 65536) :
    (fieldAt value lo).toNat = value * p := by
  subst hp
  have : value ≤ value * 2 ^ lo := Nat.le_mul_of_pos_right _ (Nat.two_pow_pos lo)
  rw [fieldAt, BitVec.toNat_shiftLeft, BitVec.toNat_ofNat, Nat.mod_eq_of_lt (by omega : value < 2 ^ 16),
    Nat.shiftLeft_eq, Nat.mod_eq_of_lt h]

/-- A sum of a multiple of a power of two and a smaller number is their OR. -/
theorem add_eq_or {a b p : Nat} (k : Nat) (hp : 2 ^ k = p) (h : b < p) :
    a * p + b = (a * p) ||| b := by
  subst hp
  rw [Nat.mul_comm, Nat.two_pow_add_eq_or_of_lt h]

theorem encNnn_eq_or {op : Nat} (h : op < 16) (nnn : Imm12) :
    encNnn op nnn = BitVec.ofNat 16 (op * 4096) ||| fieldAt nnn.toNat 0 := by
  have hn := nnn.isLt
  apply BitVec.eq_of_toNat_eq
  rw [encNnn_toNat h, BitVec.toNat_or, fieldAt_toNat (p := 1) rfl (by omega), BitVec.toNat_ofNat,
    Nat.mod_eq_of_lt (by omega), mul_one]
  exact add_eq_or 12 rfl hn

theorem encXkk_eq_or {op : Nat} (h : op < 16) (x : Reg) (kk : Byte) :
    encXkk op x kk = BitVec.ofNat 16 (op * 4096) ||| fieldAt x.val 8 ||| fieldAt kk.toNat 0 := by
  have hx := x.isLt
  have hk := kk.isLt
  apply BitVec.eq_of_toNat_eq
  rw [encXkk_toNat h, BitVec.toNat_or, BitVec.toNat_or, fieldAt_toNat (p := 256) rfl (by omega),
    fieldAt_toNat (p := 1) rfl (by omega), BitVec.toNat_ofNat, Nat.mod_eq_of_lt (by omega), mul_one,
    ← add_eq_or (a := op) (p := 4096) 12 rfl (by omega),
    show op * 4096 + x.val * 256 = (op * 16 + x.val) * 256 by omega,
    ← add_eq_or (p := 256) 8 rfl hk]

theorem encXyn_eq_or {op n : Nat} (h : op < 16) (hn : n < 16) (x y : Reg) :
    encXyn op x y n =
      BitVec.ofNat 16 (op * 4096 + n) ||| fieldAt x.val 8 ||| fieldAt y.val 4 := by
  have hx := x.isLt
  have hy := y.isLt
  apply BitVec.eq_of_toNat_eq
  rw [encXyn_toNat h hn, BitVec.toNat_or, BitVec.toNat_or, fieldAt_toNat (p := 256) rfl (by omega),
    fieldAt_toNat (p := 16) rfl (by omega), BitVec.toNat_ofNat, Nat.mod_eq_of_lt (by omega),
    show op * 4096 + n = op * 256 * 16 + n by omega, add_eq_or (p := 16) 4 rfl hn,
    Nat.or_right_comm _ n, Nat.or_right_comm _ n,
    show op * 256 * 16 = op * 4096 by omega, ← add_eq_or (p := 4096) 12 rfl (by omega),
    show op * 4096 + x.val * 256 = (op * 16 + x.val) * 256 by omega,
    ← add_eq_or (p := 256) 8 rfl (by omega),
    show (op * 16 + x.val) * 256 + y.val * 16 = (op * 256 + x.val * 16 + y.val) * 16 by omega,
    ← add_eq_or (p := 16) 4 rfl hn]

theorem encX_eq_or {op sel : Nat} (h : op < 16) (hs : sel < 256) (x : Reg) :
    encX op x sel = BitVec.ofNat 16 (op * 4096 + sel) ||| fieldAt x.val 8 := by
  have hx := x.isLt
  apply BitVec.eq_of_toNat_eq
  rw [encX_toNat h hs, BitVec.toNat_or, fieldAt_toNat (p := 256) rfl (by omega), BitVec.toNat_ofNat,
    Nat.mod_eq_of_lt (by omega),
    show op * 4096 + sel = op * 16 * 256 + sel by omega, add_eq_or (p := 256) 8 rfl hs,
    Nat.or_right_comm _ sel, show op * 16 * 256 = op * 4096 by omega,
    ← add_eq_or (p := 4096) 12 rfl (by omega),
    show op * 4096 + x.val * 256 = (op * 16 + x.val) * 256 by omega,
    ← add_eq_or (p := 256) 8 rfl hs]

end Sys2Proof.Machine
end

