-- ==== Sys2Proof/Tests/Slice0.lean ====
section
/-! SUPPORT. The model's own tests. Expected results are the spec's worked examples and vectors
(spec/95_test_vectors.md, cited T-..) or its rules' examples; words are written out bit by bit from the
encodings of spec/30_encoding.md R61 and R64. Then one witness for the hypotheses of each statement. -/

namespace Sys2Proof.Tests

open Sys2Proof Sys2Proof.Machine

/-! ### Helpers -/

/-- The reset state with a word placed at PC, as the vectors start. -/
def at200 (w : Nat) : State := State.reset.withFetchWord 16 w

/-- The answer is a next state with a property. -/
def gives (r : Result) (p : State → Bool) : Bool :=
  match r with
  | .next t => p t
  | .fault _ => false
  | .refused _ => false

/-- One step, and a property of the next state. -/
def stepGives (s : State) (p : State → Bool) : Bool := gives (step s) p

/-- The state with bytes in memory from an address. -/
def State.bytes (s : State) (a : Nat) (bs : List Byte) : State := { s with mem := s.mem.store a bs }

/-- The state with one pixel turned on. -/
def State.light (s : State) (row : Fin 32) (col : Fin 64) : State :=
  { s with fb := Frame.flip s.fb row col true }

/-- The pixel is on. -/
def lit (s : State) (row : Fin 32) (col : Fin 64) : Bool := s.pixel row col

/-- How many pixels are on. -/
def litCount (s : State) : Nat :=
  s.fb.toList.foldl (fun k row => row.toList.foldl (fun k b => bif b then k + 1 else k) k) 0

/-- Exactly the pixels listed, which are all different, are on. -/
def litExactly (s : State) (ps : List (Fin 32 × Fin 64)) : Bool :=
  litCount s == ps.length && ps.all fun p => s.pixel p.1 p.2

/-! ### Well-formedness -/

theorem test_wellFormed_refuses_height_16 : (Instr.drwVxVyN 0 0 16).wellFormed = false := by decide
theorem test_wellFormed_admits_height_15 : (Instr.drwVxVyN 0 0 15).wellFormed = true := by decide

/-! ### Decoding: one word per constructor, bit by bit -/

theorem test_decode_cls : decode 0b0000000011100000 = .ok .cls := by decide
theorem test_decode_ret : decode 0b0000000011101110 = .ok .ret := by decide
theorem test_decode_jp : decode 0b0001001000110100 = .ok (.jpNnn 0x234) := by decide
theorem test_decode_call : decode 0b0010001100000000 = .ok (.callNnn 0x300) := by decide
theorem test_decode_seKk : decode 0b0011101001000010 = .ok (.seVxKk 0xA 0x42) := by decide
theorem test_decode_sneKk : decode 0b0100101001000010 = .ok (.sneVxKk 0xA 0x42) := by decide
theorem test_decode_seVy : decode 0b0101000100100000 = .ok (.seVxVy 1 2) := by decide
theorem test_decode_ldKk : decode 0b0110101001111111 = .ok (.ldVxKk 0xA 0x7F) := by decide
theorem test_decode_addKk : decode 0b0111001100000101 = .ok (.addVxKk 3 5) := by decide
theorem test_decode_ldVy : decode 0b1000000100100000 = .ok (.ldVxVy 1 2) := by decide
theorem test_decode_or : decode 0b1000000100100001 = .ok (.orVxVy 1 2) := by decide
theorem test_decode_and : decode 0b1000000100100010 = .ok (.andVxVy 1 2) := by decide
theorem test_decode_xor : decode 0b1000000100100011 = .ok (.xorVxVy 1 2) := by decide
theorem test_decode_add : decode 0b1000000100100100 = .ok (.addVxVy 1 2) := by decide
theorem test_decode_sub : decode 0b1000000100100101 = .ok (.subVxVy 1 2) := by decide
theorem test_decode_shr : decode 0b1000000110100110 = .ok (.shrVx 1 0xA) := by decide
theorem test_decode_subn : decode 0b1000000100100111 = .ok (.subnVxVy 1 2) := by decide
theorem test_decode_shl : decode 0b1000111100011110 = .ok (.shlVx 0xF 1) := by decide
theorem test_decode_sneVy : decode 0b1001000100100000 = .ok (.sneVxVy 1 2) := by decide
theorem test_decode_ldI : decode 0b1010111111111111 = .ok (.ldINnn 0xFFF) := by decide
theorem test_decode_jpV0 : decode 0b1011001100000000 = .ok (.jpV0Nnn 0x300) := by decide
theorem test_decode_rnd : decode 0b1100001111110000 = .ok (.rndVxKk 3 0xF0) := by decide
theorem test_decode_drw : decode 0b1101000000011111 = .ok (.drwVxVyN 0 1 15) := by decide
theorem test_decode_skp : decode 0b1110010110011110 = .ok (.skpVx 5) := by decide
theorem test_decode_sknp : decode 0b1110010110100001 = .ok (.sknpVx 5) := by decide
theorem test_decode_ldDt : decode 0b1111001000000111 = .ok (.ldVxDt 2) := by decide
theorem test_decode_ldK : decode 0b1111000100001010 = .ok (.ldVxK 1) := by decide
theorem test_decode_setDt : decode 0b1111001000010101 = .ok (.ldDtVx 2) := by decide
theorem test_decode_setSt : decode 0b1111001000011000 = .ok (.ldStVx 2) := by decide
theorem test_decode_addI : decode 0b1111000100011110 = .ok (.addIVx 1) := by decide
theorem test_decode_ldF : decode 0b1111001000101001 = .ok (.ldFVx 2) := by decide
theorem test_decode_ldB : decode 0b1111001100110011 = .ok (.ldBVx 3) := by decide
theorem test_decode_store : decode 0b1111001001010101 = .ok (.ldMemVx 2) := by decide
theorem test_decode_load : decode 0b1111111101100101 = .ok (.ldVxMem 0xF) := by decide

/-- T-X1 to T-X12: each illegal word is refused by the family it lies in. -/
theorem test_decode_refuses_by_family :
    [0x0000, 0x00E1, 0x01E0, 0x0123, 0x5121, 0x9121, 0x8128, 0x812F, 0xE19F, 0xF100, 0xF175,
      0xFFFF].map decode =
    [.error (.illegalFamily0 0x0000), .error (.illegalFamily0 0x00E1),
      .error (.illegalFamily0 0x01E0), .error (.illegalFamily0 0x0123),
      .error (.illegalFamily5 0x5121), .error (.illegalFamily9 0x9121),
      .error (.illegalFamily8 0x8128), .error (.illegalFamily8 0x812F),
      .error (.illegalFamilyE 0xE19F), .error (.illegalFamilyF 0xF100),
      .error (.illegalFamilyF 0xF175), .error (.illegalFamilyF 0xFFFF)] := by decide

theorem test_decodeBytes_high_byte_first :
    decodeBytes [0x62, 0xAA, 0x01] = .ok (.ldVxKk 2 0xAA, [0x01]) := by decide

theorem test_decodeBytes_truncated : decodeBytes [0x62] = .error .truncated := by decide

theorem test_decodeTableWord : decodeTableWord 16 0xA2F0 = some (.ldINnn 0x2F0) := by decide

/-! ### Flow -/

/-- T-F3. -/
theorem test_ret_pops :
    stepGives { at200 0x00EE with sp := 3, stack := State.reset.stack.set 3 0x0ABC }
      (fun t => t.pc == 0x0ABC && t.sp == 2) = true := by decide

/-- T-F13. -/
theorem test_ret_underflow :
    stepGives (at200 0x00EE)
      (fun t => t.halt == .halted .stackUnderflow 0x0200 0x00EE && t.pc == 0x0200) = true := by decide

/-- T-F1. -/
theorem test_jp : stepGives (at200 0x1ABC) (fun t => t.pc == 0x0ABC) = true := by decide

/-- T-F10. -/
theorem test_call_fifteenth :
    stepGives { at200 0x2300 with sp := 14 }
      (fun t => t.pc == 0x0300 && t.sp == 15 && t.stack[15] == 0x0202) = true := by decide

/-- T-F11. -/
theorem test_call_overflow :
    stepGives { at200 0x2300 with sp := 15 }
      (fun t => t.halt == .halted .stackOverflow 0x0200 0x2300 && t.pc == 0x0200 && t.sp == 15) =
      true := by decide

/-- T-F8b: not masked to 12 bits. -/
theorem test_jpV0_unmasked :
    stepGives ((at200 0xBFFF).writeV 0 0xFF) (fun t => t.pc == 0x10FE) = true := by decide

/-- T-F4a, T-F4b. -/
theorem test_se_kk :
    (stepGives ((at200 0x3A42).writeV 0xA 0x42) (fun t => t.pc == 0x0204) &&
      stepGives ((at200 0x3A42).writeV 0xA 0x41) (fun t => t.pc == 0x0202)) = true := by decide

/-- T-F5a, T-F5b. -/
theorem test_sne_kk :
    (stepGives ((at200 0x4A42).writeV 0xA 0x42) (fun t => t.pc == 0x0202) &&
      stepGives ((at200 0x4A42).writeV 0xA 0x41) (fun t => t.pc == 0x0204)) = true := by decide

/-- T-F6a, T-F6b. -/
theorem test_se_vy :
    (stepGives (((at200 0x5120).writeV 1 7).writeV 2 7) (fun t => t.pc == 0x0204) &&
      stepGives (((at200 0x5120).writeV 1 7).writeV 2 8) (fun t => t.pc == 0x0202)) = true := by
  decide

/-- T-F7a, T-F7c. -/
theorem test_sne_vy :
    (stepGives (((at200 0x9120).writeV 1 7).writeV 2 8) (fun t => t.pc == 0x0204) &&
      stepGives ((at200 0x9110).writeV 1 7) (fun t => t.pc == 0x0202)) = true := by decide

/-- T-F9b: a skip across the top of the 16-bit range. -/
theorem test_skip_wraps :
    stepGives (State.withFetchWord { State.reset with pc := 0xFFFE } 16 0x3000)
      (fun t => t.pc == 0x0002) = true := by decide

/-- T-F9d: the fetch straddles the end of memory and the address is masked. -/
theorem test_fetch_straddles :
    stepGives (State.withFetchWord { State.reset with pc := 0x1FFF } 16 0x6123)
      (fun t => t.readV 1 == 0x23 && t.pc == 0x2001 && t.mem.read 0xFFF == 0x61 &&
        t.mem.read 0 == 0x23) = true := by decide

/-! ### Arithmetic and logic -/

/-- T-A2: VF is an ordinary destination. -/
theorem test_ld_kk_vF : stepGives (at200 0x6F33) (fun t => t.readV 0xF == 0x33) = true := by decide

/-- T-A3. -/
theorem test_add_kk_wraps :
    stepGives ((at200 0x7305).writeV 3 0xFE) (fun t => t.readV 3 == 0x03 && t.readV 0xF == 0) =
      true := by decide

/-- T-A5. -/
theorem test_ld_vy :
    stepGives (((at200 0x8120).writeV 2 0x9C).writeV 0xF 7)
      (fun t => t.readV 1 == 0x9C && t.readV 0xF == 7) = true := by decide

/-- T-A6: VF is not touched. -/
theorem test_or :
    stepGives ((((at200 0x8121).writeV 1 0xF0).writeV 2 0x0F).writeV 0xF 7)
      (fun t => t.readV 1 == 0xFF && t.readV 0xF == 7) = true := by decide

/-- T-A7. -/
theorem test_and :
    stepGives ((((at200 0x8122).writeV 1 0xF3).writeV 2 0x3F).writeV 0xF 7)
      (fun t => t.readV 1 == 0x33 && t.readV 0xF == 7) = true := by decide

/-- T-A8. -/
theorem test_xor :
    stepGives ((((at200 0x8123).writeV 1 0xF3).writeV 2 0x3F).writeV 0xF 7)
      (fun t => t.readV 1 == 0xCC && t.readV 0xF == 7) = true := by decide

/-- T-A12: sum 255 is no carry. -/
theorem test_add_no_carry :
    stepGives ((((at200 0x8124).writeV 1 0xFE).writeV 2 1).writeV 0xF 1)
      (fun t => t.readV 1 == 0xFF && t.readV 0xF == 0) = true := by decide

/-- T-A15: the flag overwrites the sum. -/
theorem test_add_flag_last :
    stepGives ((at200 0x8FF4).writeV 0xF 0x7F) (fun t => t.readV 0xF == 0) = true := by decide

/-- T-S3, second part. -/
theorem test_sub_borrow :
    stepGives ((((at200 0x8125).writeV 1 2).writeV 2 5).writeV 0xF 1)
      (fun t => t.readV 1 == 0xFD && t.readV 0xF == 0) = true := by decide

/-- T-S3, first part: the equal case. -/
theorem test_sub_equal :
    stepGives (((at200 0x8125).writeV 1 5).writeV 2 5)
      (fun t => t.readV 1 == 0 && t.readV 0xF == 1) = true := by decide

/-- T-A27: the shift is of Vx, Vy is not read. -/
theorem test_shr_ignores_vy :
    stepGives ((at200 0x81A6).writeV 1 0xFF)
      (fun t => t.readV 1 == 0x7F && t.readV 0xA == 0 && t.readV 0xF == 1) = true := by decide

/-- T-A29: the flag wins in VF. -/
theorem test_shr_flag_last :
    stepGives ((at200 0x8F16).writeV 0xF 2) (fun t => t.readV 0xF == 0) = true := by decide

/-- T-A23. -/
theorem test_subn :
    stepGives ((at200 0x8127).writeV 1 1)
      (fun t => t.readV 1 == 0xFF && t.readV 0xF == 0) = true := by decide

/-- T-A24: the equal case. -/
theorem test_subn_equal :
    stepGives (((at200 0x8127).writeV 1 5).writeV 2 5)
      (fun t => t.readV 1 == 0 && t.readV 0xF == 1) = true := by decide

/-- T-A31. -/
theorem test_shl :
    stepGives (((at200 0x810E).writeV 1 0x40).writeV 0xF 1)
      (fun t => t.readV 1 == 0x80 && t.readV 0xF == 0) = true := by decide

/-- T-A33: the flag wins in VF. -/
theorem test_shl_flag_last :
    stepGives ((at200 0x8F1E).writeV 0xF 0x7F) (fun t => t.readV 0xF == 0) = true := by decide

/-- T-A34: the host names the byte 0xA7. -/
theorem test_rnd_named :
    stepGives { at200 0xC3F0 with env := { Env.reset with agenda := [.step 0xA7] } }
      (fun t => t.readV 3 == 0xA0 && t.env == { Env.reset with stepped := true }) = true := by decide

/-- The corner case of 41_alu.md R114: kk = 0 gives 0 for every free byte. -/
theorem test_rnd_free_masked (b : Byte) : b &&& 0 = 0 := by simp

/-! ### Index, load and store -/

/-- T-M1. -/
theorem test_ldI :
    stepGives { at200 0xAFFF with i := 0x1234 } (fun t => t.i == 0x0FFF) = true := by decide

/-- T-M3: no overflow flag and no mask. -/
theorem test_addI_unmasked :
    stepGives (State.writeV { at200 0xF11E with i := 0x0FFF } 1 2)
      (fun t => t.i == 0x1001 && t.readV 0xF == 0) = true := by decide

/-- T-M4. -/
theorem test_addI_wraps :
    stepGives (State.writeV { at200 0xF11E with i := 0xFFFF } 1 1) (fun t => t.i == 0) = true := by
  decide

/-- T-M7: the whole byte is multiplied. -/
theorem test_ldF_whole_byte :
    stepGives ((at200 0xF229).writeV 2 0xFF) (fun t => t.i == 0x04FB) = true := by decide

/-- T-S5. -/
theorem test_ldB :
    stepGives (State.writeV { at200 0xF433 with i := 0x0300 } 4 234)
      (fun t => t.mem.read 0x300 == 2 && t.mem.read 0x301 == 3 && t.mem.read 0x302 == 4 &&
        t.i == 0x0300) = true := by decide

/-- T-M10: the digits wrap into the font area. -/
theorem test_ldB_wraps :
    stepGives (State.writeV { at200 0xF333 with i := 0x0FFE } 3 0xFF)
      (fun t => t.mem.read 0xFFE == 2 && t.mem.read 0xFFF == 5 && t.mem.read 0 == 5 &&
        t.mem.read 1 == 0x90) = true := by decide

/-- T-M13: the block wraps. -/
theorem test_store_wraps :
    stepGives (State.writeV (State.writeV (State.writeV
        { at200 0xF255 with i := 0x0FFF } 0 0xA1) 1 0xB2) 2 0xC3)
      (fun t => t.mem.read 0xFFF == 0xA1 && t.mem.read 0 == 0xB2 && t.mem.read 1 == 0xC3 &&
        t.mem.read 2 == 0x90 && t.i == 0x0FFF) = true := by decide

/-- T-M12: x = 0 stores one byte. -/
theorem test_store_one :
    stepGives (State.writeV (State.writeV { at200 0xF055 with i := 0x0300 } 0 0xAB) 1 0xCD)
      (fun t => t.mem.read 0x300 == 0xAB && t.mem.read 0x301 == 0) = true := by decide

/-- T-M15. -/
theorem test_load_wraps :
    stepGives (State.bytes { at200 0xF265 with i := 0x0FFF } 0xFFF [0x77])
      (fun t => t.readV 0 == 0x77 && t.readV 1 == 0xF0 && t.readV 2 == 0x90 && t.readV 3 == 0) =
      true := by decide

/-- T-M17: registers above Vx are kept. -/
theorem test_load_one :
    stepGives (State.writeV { at200 0xF065 with i := 0x004F } 1 0x55)
      (fun t => t.readV 0 == 0x80 && t.readV 1 == 0x55) = true := by decide

/-! ### Display -/

/-- T-D14, with one pixel on. -/
theorem test_cls :
    stepGives (State.light ((at200 0x00E0).writeV 0xF 1) 3 5)
      (fun t => litExactly t [] && t.readV 0xF == 1 && t.dirty) = true := by decide +kernel

/-- T-D2: the row wraps to column 0 of the same row. -/
theorem test_drw_wraps :
    stepGives (State.writeV (State.writeV
        (State.bytes { at200 0xD011 with i := 0x0300 } 0x300 [0xFF]) 0 62) 1 31)
      (fun t => litExactly t [(31, 62), (31, 63), (31, 0), (31, 1), (31, 2), (31, 3), (31, 4), (31, 5)]
        && t.readV 0xF == 0 && t.dirty) = true := by decide +kernel

/-- T-D10: x = 15; a collision in row 0 does not move row 1. -/
theorem test_drw_samples_once :
    stepGives (State.light (State.bytes { at200 0xDF02 with i := 0x0300 } 0x300 [0x80, 0x80]) 0 0)
      (fun t => litExactly t [(1, 0)] && t.readV 0xF == 1) = true := by decide +kernel

/-! ### Keypad and timers -/

/-- T-K6: 15 is the last legal index. -/
theorem test_skp_last_key :
    stepGives (State.writeV { at200 0xE59E with key := State.reset.key.set 15 true } 5 0x0F)
      (fun t => t.pc == 0x0204) = true := by decide

/-- T-K7. -/
theorem test_skp_range :
    stepGives ((at200 0xE59E).writeV 5 0x10)
      (fun t => t.halt == .halted .keyIndexRange 0x0200 0xE59E && t.pc == 0x0200) = true := by decide

/-- T-K4, T-K5. -/
theorem test_sknp :
    (stepGives (State.writeV { at200 0xE5A1 with key := State.reset.key.set 10 true } 5 0x0A)
        (fun t => t.pc == 0x0202) &&
      stepGives ((at200 0xE5A1).writeV 5 0x0A) (fun t => t.pc == 0x0204)) = true := by decide

/-- T-K8. -/
theorem test_sknp_range :
    stepGives ((at200 0xE5A1).writeV 5 0xFF)
      (fun t => t.halt == .halted .keyIndexRange 0x0200 0xE5A1) = true := by decide

/-- T-K9: the stall changes nothing. -/
theorem test_ldK_stalls :
    stepGives ((at200 0xF10A).writeV 1 0x77)
      (fun t => t.pc == 0x0200 && t.readV 1 == 0x77 && t.halt == .running) = true := by decide

/-- T-K10: the lowest index. -/
theorem test_ldK_lowest :
    stepGives { at200 0xF10A with key := (State.reset.key.set 3 true).set 7 true }
      (fun t => t.pc == 0x0202 && t.readV 1 == 3) = true := by decide

/-- T-K14. -/
theorem test_ldDt :
    stepGives { at200 0xF207 with dt := 60 } (fun t => t.readV 2 == 0x3C && t.dt == 60) = true := by
  decide

/-- T-K15. -/
theorem test_setDt :
    stepGives (State.writeV { at200 0xF215 with dt := 7 } 2 0x3C) (fun t => t.dt == 60) = true := by
  decide

/-- T-K16. -/
theorem test_setSt :
    stepGives ((at200 0xF218).writeV 2 5) (fun t => t.st == 5 && t.sound) = true := by decide

/-! ### Faults and events -/

/-- T-X15: decode comes before the key check. -/
theorem test_illegal_before_key :
    stepGives ((at200 0xE19F).writeV 1 0xFF)
      (fun t => t.halt == .halted .illegalOpcode 0x0200 0xE19F) = true := by decide

/-- T-H5: the first step from reset with nothing loaded. -/
theorem test_reset_then_step :
    stepGives State.reset
      (fun t => t.halt == .halted .illegalOpcode 0x0200 0x0000 && t.pc == 0x0200) = true := by decide

/-- T-H6. -/
theorem test_tick :
    stepGives { State.reset with dt := 1, st := 3, env := { Env.reset with agenda := [.tick] } }
      (fun t => t.dt == 0 && t.st == 2 && t.env == Env.reset) = true := by decide

/-- T-H2. -/
theorem test_load :
    stepGives { State.reset with env := { Env.reset with agenda := [.load [0xA2, 0xF0, 0x61]] } }
      (fun t => t.mem == [(0x200, 0xA2), (0x201, 0xF0), (0x202, 0x61)]) = true := by decide

/-- T-H8, last event, and T-H10, second event. -/
theorem test_setKey_ackFrame :
    (gives (applyEvent (.setKey 5 false) { State.reset with key := State.reset.key.set 5 true })
        (fun t => t.key == State.reset.key) &&
      gives (applyEvent .ackFrame { State.reset with dirty := true }) (fun t => !t.dirty)) = true := by
  decide

/-- T-X14: RESET after a halt. -/
theorem test_reset_after_halt :
    gives (applyEvent (.reset defaultFont)
      { State.reset with halt := .halted .illegalOpcode 0x0200 0, pc := 0x0300 })
      (fun t => t == State.reset) = true := by decide +kernel

/-! ### Witnesses: the hypotheses of each statement are met together -/

theorem witness_DecodeOfEncodeGivesTheInstruction :
    (Instr.drwVxVyN 0xF 0xF 15).wellFormed = true := by decide

theorem witness_EncodeOfDecodeGivesTheWord : decode 0xDFFF = .ok (.drwVxVyN 0xF 0xF 15) := by decide

theorem witness_DecodeAgreesWithTheOpcodeMap :
    ∃ r ∈ opcodeTable, r.selects 0x812E = true ∧ decode 0x812E = .ok (.shlVx 1 2) :=
  ⟨⟨0x800E, 0xF00F⟩, by decide, by decide, by decide⟩

theorem witness_StepRunsTheDecodedInstruction :
    (at200 0x1200).halt = .running ∧ decode (at200 0x1200).fetchWord = .ok (.jpNnn 0x200) ∧
      (at200 0x1200).env.agenda = [] := by decide

theorem witness_StepRunsTheDecodedInstruction_named :
    ∃ s : State, s.halt = .running ∧ decode s.fetchWord = .ok (.rndVxKk 0 0xFF) ∧
      s.env.agenda = .step 0x5B :: [] :=
  ⟨{ at200 0xC0FF with env := { Env.reset with agenda := [.step 0x5B] } }, by decide⟩

theorem witness_EventsHappenInTheAgendasOrder :
    State.reset.env.agenda = [] ∧
      ∃ s : State, s.env.agenda = Event.tick :: [.ackFrame] :=
  ⟨rfl, { State.reset with env := { Env.reset with agenda := [.tick, .ackFrame] } }, rfl⟩

theorem witness_IllegalWordHaltsTheEngine :
    State.reset.halt = .running ∧ ¬ ∃ i, decode State.reset.fetchWord = .ok i := by
  refine ⟨rfl, ?_⟩
  rintro ⟨i, hi⟩
  have : decode State.reset.fetchWord = .error (.illegalFamily0 0) := by decide
  rw [this] at hi
  cases hi

theorem witness_HaltedEngineLeavesOnlyByReset :
    ∃ s t : State, s.halt = .halted .stackUnderflow 0x0200 0x00EE ∧ applyEvent .tick s = .next t ∧
      ∀ font, Event.tick ≠ .reset font :=
  ⟨{ State.reset with halt := .halted .stackUnderflow 0x0200 0x00EE }, _, rfl, rfl,
    fun _ h => Event.noConfusion h⟩

theorem witness_FaultingStepChangesOnlyTheLatch :
    ∃ t : State, State.reset.halt = .running ∧ stepEvent none State.reset = .next t ∧
      t.halt = .halted .illegalOpcode 0x0200 0 := ⟨_, rfl, rfl, by decide⟩

theorem witness_StepFaultsExactlyAsListed :
    (at200 0x0000).faultOfStep = some .illegalOpcode ∧
    State.faultOfStep { at200 0x2300 with sp := 15 } = some .stackOverflow ∧
    State.faultOfStep { at200 0x2300 with sp := 14 } = none ∧
    (at200 0x00EE).faultOfStep = some .stackUnderflow ∧
    State.faultOfStep { at200 0x00EE with sp := 1 } = none ∧
    ((at200 0xE09E).writeV 0 16).faultOfStep = some .keyIndexRange ∧
    ((at200 0xE0A1).writeV 0 15).faultOfStep = none ∧ (at200 0x2300).halt = .running := by decide

theorem witness_OnlyAnOutOfOrderLoadIsRefused :
    ∃ s : State, s.env.agenda = .load [0x12] :: [] ∧ s.env.stepped = true ∧
      step s = .refused .loadOutOfOrder :=
  ⟨{ State.reset with env := { Env.reset with agenda := [.load [0x12]], stepped := true } },
    rfl, rfl, rfl⟩

theorem witness_RetPopsTheStack :
    State.reset.sp = 0 ∧ State.sp { State.reset with sp := 1 } ≠ 0 := by decide

theorem witness_CallPushesTheReturnAddress :
    State.sp { State.reset with sp := 14 } ≠ 15 ∧ State.sp { State.reset with sp := 15 } = 15 := by
  decide

/-- A call at depth 14 of a routine that wraps past 0xFFF, with the host's coming events given. -/
def callsWrapped (agenda : List Event) : State :=
  { State.bytes (at200 0x2FFF) 0xFFF [0x00, 0xEE] with
    sp := 14, env := { Env.reset with agenda := agenda } }

theorem witness_CallThenReturnComesBack :
    (callsWrapped []).halt = .running ∧ OnlySteps ((callsWrapped []).env.agenda.take 2) ∧
      (callsWrapped []).sp ≠ 15 ∧ decode (callsWrapped []).fetchWord = .ok (.callNnn 0xFFF) ∧
      (callsWrapped []).mem.read (0xFFF : Imm12).toNat = 0x00 ∧
      (callsWrapped []).mem.read (((0xFFF : Imm12).toNat + 1) % 4096) = 0xEE :=
  ⟨rfl, by simp [OnlySteps, callsWrapped, Env.reset], by decide, by decide, by decide, by decide⟩

theorem witness_CallThenReturnComesBack_agenda :
    OnlySteps ((callsWrapped [.step 1, .step 2, .tick]).env.agenda.take 2) ∧
      (callsWrapped [.step 1, .step 2, .tick]).halt = .running ∧
      (callsWrapped [.step 1, .step 2, .tick]).sp ≠ 15 ∧
      decode (callsWrapped [.step 1, .step 2, .tick]).fetchWord = .ok (.callNnn 0xFFF) ∧
      (callsWrapped [.step 1, .step 2, .tick]).mem.read (0xFFF : Imm12).toNat = 0x00 ∧
      (callsWrapped [.step 1, .step 2, .tick]).mem.read (((0xFFF : Imm12).toNat + 1) % 4096) = 0xEE :=
  ⟨by simp [OnlySteps, callsWrapped], rfl, by decide, by decide, by decide, by decide⟩

theorem witness_SkipsComparingRegisters : ∃ n : Nat, 0 < n ∧ n < 16 := ⟨15, by decide⟩

theorem witness_SkipsComparingRegisters_least : ∃ n : Nat, 0 < n ∧ n < 16 := ⟨1, by decide⟩

theorem witness_RandomMasksTheHostsByte :
    (∃ s : State, s.env.rndArg = some 0xA7) ∧ State.reset.env.rndArg = none :=
  ⟨⟨{ State.reset with env := { Env.reset with rndArg := some 0xA7 } }, rfl⟩, rfl⟩

/-- The premise of the statements about stores (StoreDecimalDigitsAtI, StoreRegistersAtI,
StoreThenLoadReproducesRegisters), with memory that lists cells. -/
theorem witness_canonical_memory :
    State.reset.mem.wf ∧ (at200 0x6A42).mem.wf ∧ (at200 0x6A42).mem ≠ [] := by decide

/-- A canonical memory with a byte listed. -/
theorem witness_StoreDecimalDigitsAtI :
    (State.bytes { State.reset with i := 0x0FFE } 0x300 [0xAB]).mem.wf := by decide

theorem witness_StoreRegistersAtI :
    (State.bytes { State.reset with i := 0x0FFE } 0x300 [0xAB]).mem.wf := by decide

theorem witness_StoreThenLoadReproducesRegisters :
    (State.bytes { State.reset with i := 0x0FFE } 0x300 [0xAB]).mem.wf := by decide

theorem witness_StoreIsSeenByTheNextFetch :
    ∃ s : State, s.mem.wf ∧ 1 ≤ (1 : Reg).val ∧ s.i.toNat % 4096 = (s.pc + 2).toNat % 4096 :=
  ⟨{ State.reset with i := 0x1202 }, by decide⟩

/-- For DrawXorsTheSprite: the last row and column of a sprite at the bottom right corner. -/
theorem witness_DrawXorsTheSprite :
    ∃ s : State, (15 : Nat) ≤ 15 ∧ 14 < 15 ∧ 7 < 8 ∧
      ((13 : Fin 32).val = ((s.readV 1).toNat + 14) % 32) ∧
      ((6 : Fin 64).val = ((s.readV 0).toNat + 7) % 64) :=
  ⟨(State.reset.writeV 0 63).writeV 1 31, by decide⟩

/-- For DrawXorsTheSprite: a place outside a sprite of one row at (0, 0). -/
theorem witness_DrawXorsTheSprite_outside :
    ∀ r < 1, ∀ c < 8, ¬ ((1 : Fin 32).val = ((State.reset.readV 1).toNat + r) % 32 ∧
      (0 : Fin 64).val = ((State.reset.readV 0).toNat + c) % 64) := by decide

/-- For CollisionFlagAccumulates: a draw with a collision (T-D5) and one without (T-D9). -/
theorem witness_CollisionFlagAccumulates :
    gives (exec (.drwVxVyN 0 1 1)
        (State.light (State.bytes { State.reset with i := 0x0300 } 0x300 [0x80]) 0 0))
      (fun t => !lit t 0 0 && t.readV 0xF == 1) = true ∧
    gives (exec (.drwVxVyN 0 1 0) ({ State.reset with i := 0x0300 }.writeV 0xF 0x55))
      (fun t => litExactly t [] && t.readV 0xF == 0x55 && t.dirty) = true := by decide +kernel

/-- For DrawingTwiceRestoresTheDisplay: the first draw turns a pixel on and leaves Vx and Vy. -/
theorem witness_DrawingTwiceRestoresTheDisplay :
    (15 : Nat) ≤ 15 ∧
    gives (exec (.drwVxVyN 0 1 15) State.reset)
      (fun t => t.readV 0 == State.reset.readV 0 && t.readV 1 == State.reset.readV 1 && lit t 0 0) =
      true := by decide +kernel

theorem witness_DrawsCommuteOnTheDisplay : (15 : Nat) ≤ 15 ∧ (0 : Nat) ≤ 15 := by decide

theorem witness_KeySkipsTestOneKey :
    (15 : Fin 16).val = ((State.reset.writeV 5 15).readV 5).toNat ∧
      15 < ((State.reset.writeV 5 16).readV 5).toNat := by decide

theorem witness_WaitForKeyStallsOrLoadsTheLeast :
    (∀ k : Fin 16, State.reset.key[k] = false) ∧
      ∃ s : State, s.key[(15 : Fin 16)] = true ∧ ∀ j : Fin 16, j < 15 → s.key[j] = false :=
  ⟨by decide, { State.reset with key := State.reset.key.set 15 true }, by decide, by decide⟩

theorem witness_SoundIsSoundTimerAboveZero : ∃ s : State, s.st = 1 :=
  ⟨{ State.reset with st := 1 }, rfl⟩

theorem witness_ResetForgetsThePast : ∃ a : Nat, 80 ≤ a := ⟨80, by decide⟩

theorem witness_LoadCopiesTheImage :
    State.reset.env.stepped = false ∧ State.reset.env.loadReport = none ∧
      (List.replicate 3584 (0 : Byte)).length ≤ 3584 ∧ State.reset.mem.wf :=
  ⟨rfl, rfl, List.length_replicate.le, by decide⟩

theorem witness_LoadCopiesTheImage_late :
    ∃ s : State, s.env.stepped = false ∧ s.env.loadReport ≠ none :=
  ⟨{ State.reset with env := { Env.reset with loadReport := some .accepted } }, rfl, by decide⟩

theorem witness_OverlongImageIsReportedAndChangesNothing :
    State.reset.env.stepped = false ∧ State.reset.env.loadReport = none ∧
      4096 - 0x200 < (List.replicate 3585 (0 : Byte)).length :=
  ⟨rfl, rfl, by rw [List.length_replicate]; decide⟩

theorem witness_RegistersOutsideTheTableAreKept :
    ∃ t : State, exec (.addVxVy 1 2) State.reset = .next t ∧
      (3 : Reg) ∉ regsWritten (.addVxVy 1 2) := ⟨_, rfl, by decide⟩

theorem witness_EachPieceHasItsOwnWriters :
    ∃ t : State, exec (.ldVxKk 1 2) State.reset = .next t := ⟨_, rfl⟩

theorem witness_DelayTimerRisesOnlyWhenWritten :
    ∃ s t : State, applyEvent (.step 0) s = .next t ∧
      ∀ rnd x, Event.step 0 = .step rnd → decode s.fetchWord ≠ .ok (.ldDtVx x) := by
  refine ⟨at200 0x1200, _, rfl, fun _ x _ h => ?_⟩
  have : decode (at200 0x1200).fetchWord = .ok (.jpNnn 0x200) := by decide
  rw [this] at h
  cases h

theorem witness_ParkedMachineStaysParked :
    (at200 0x1200).Parked ∧ (∀ k, OnlySteps ((at200 0x1200).env.agenda.take k)) ∧
      ∃ t, applyEvent .tick (at200 0x1200) = .next t := by
  refine ⟨⟨rfl, ?_, ?_⟩, fun k e he => ?_, _, rfl⟩
  · decide
  · decide
  · rw [show (at200 0x1200).env.agenda = [] from rfl, List.take_nil] at he
    cases he

theorem witness_ParkedMachineStaysParked_agenda :
    ∃ s : State, s.Parked ∧ OnlySteps (s.env.agenda.take 1) ∧
      s.env.agenda = .step 0x5B :: [.tick] := by
  refine ⟨{ at200 0x1200 with env := { Env.reset with agenda := [.step 0x5B, .tick] } },
    ⟨rfl, ?_, ?_⟩, ?_, rfl⟩
  · decide
  · decide
  · simp [OnlySteps]

theorem witness_EveryStepKeepsTheInvariant :
    ∃ t : State, State.reset.Inv ∧ step State.reset = .next t :=
  ⟨_, ⟨Memory.wf_nil, rfl, rfl, fun h => absurd rfl h, fun _ _ _ h => HaltLatch.noConfusion h⟩, rfl⟩

end Sys2Proof.Tests
end

/-! The instruction words. Every well-formed instruction decodes from its own word (spec/30_encoding.md R61, R65), so a
word that the encoder gives is the instruction's word. -/

namespace Sys2Proof.Machine

/-- The decoder reads back what the encoder wrote, format by format. -/
theorem decode_encode {i : Instr} (h : i.wellFormed = true) : decode (encode i) = .ok i := by
  cases i
  case cls => rfl
  case ret => rfl
  case jpNnn | callNnn | ldINnn | jpV0Nnn =>
    simp [encode, decode, fieldOp_encNnn, fieldNnn_encNnn]
  case seVxKk | sneVxKk | ldVxKk | addVxKk | rndVxKk =>
    simp [encode, decode, fieldOp_encXkk, fieldX_encXkk, fieldKk_encXkk]
  case drwVxVyN x y n =>
    have hn : n < 16 := by simp [Instr.wellFormed] at h; omega
    simp [encode, decode, fieldOp_encXyn, fieldX_encXyn, fieldY_encXyn, fieldN_encXyn, hn]
  case skpVx | sknpVx =>
    simp [encode, decode, decodeFamilyE, fieldOp_encX, fieldX_encX, selKk_encX]
  case ldVxDt | ldVxK | ldDtVx | ldStVx | addIVx | ldFVx | ldBVx | ldMemVx | ldVxMem =>
    simp [encode, decode, decodeFamilyF, fieldOp_encX, fieldX_encX, selKk_encX]
  all_goals
    simp [encode, decode, decodeFamily5, decodeFamily8, decodeFamily9, fieldOp_encXyn, fieldX_encXyn,
      fieldY_encXyn, fieldN_encXyn]

/-- The word the encoder gives a well-formed instruction is its word. -/
theorem isWordOf_of_encode {i : Instr} {w : Word} (h : i.wellFormed = true) (hw : encode i = w) :
    IsWordOf w i :=
  ⟨hw, hw ▸ decode_encode h⟩

/-- An XYN word with its low nibble as a field of its own (30_encoding.md R61). -/
theorem encXyn_eq_or_fieldAt {op n : Nat} (h : op < 16) (hn : n < 16) (x y : Reg) :
    encXyn op x y n =
      BitVec.ofNat 16 (op * 4096) ||| fieldAt x.val 8 ||| fieldAt y.val 4 ||| fieldAt n 0 := by
  apply BitVec.eq_of_toNat_eq
  rw [BitVec.toNat_or, ← Nat.add_zero (op * 4096), ← encXyn_eq_or h (by decide) x y,
    encXyn_toNat h hn, encXyn_toNat h (by decide), fieldAt_toNat (p := 1) rfl (by omega), mul_one,
    show op * 4096 + x.val * 256 + y.val * 16 = (op * 256 + x.val * 16 + y.val) * 16 by omega]
  exact add_eq_or 4 rfl hn

end Sys2Proof.Machine

/-! The family flow. Return, jumps and the register skips (spec/40_flow.md R80 to R88). -/

namespace Sys2Proof.Machine

/-! ### Return -/

/-- Settles O14, by the two cases of `State.pop`: an entry held, or an empty stack. -/
theorem retPopsTheStack : Obligations.RetPopsTheStack := by
  refine ⟨isWordOf_of_encode rfl rfl, fun s => ⟨fun held => ?_, fun empty => ?_⟩⟩
  · refine ⟨_, execRet_held held, rfl, sp_sub_one_val held, ?_⟩
    exact State.keepsAllBut_of_eq fun p hp => by cases p <;> simp_all
  · exact ⟨_, execRet_empty empty, rfl, s.keepsAllBut_latchFault _ _⟩

/-! ### Jumps -/

theorem zextNnn_toNat (nnn : Imm12) : (zextNnn nnn).toNat = nnn.toNat :=
  BitVec.toNat_ofNat .. |>.trans (Nat.mod_eq_of_lt (by omega))

theorem zextByte_toNat (b : Byte) : (zextByte b).toNat = b.toNat :=
  BitVec.toNat_ofNat .. |>.trans (Nat.mod_eq_of_lt (by omega))

/-- A byte and a 12-bit immediate add up without wrapping (40_flow.md R84). -/
theorem zextByte_add_zextNnn_toNat (b : Byte) (nnn : Imm12) :
    (zextByte b + zextNnn nnn).toNat = b.toNat + nnn.toNat := by
  rw [BitVec.toNat_add, zextByte_toNat, zextNnn_toNat]
  omega

/-- Settles O15: a jump is one write of PC. -/
theorem jumpSetsPc : Obligations.JumpSetsPc := fun nnn s =>
  ⟨isWordOf_of_encode rfl (encNnn_eq_or (by decide) nnn),
    _, rfl, zextNnn_toNat nnn, s.keepsAllBut_setPc _⟩

/-- Settles O18: a jump is one write of PC, and the sum fits its 16 bits. -/
theorem jumpWithOffsetAddsV0 : Obligations.JumpWithOffsetAddsV0 := fun nnn s =>
  ⟨isWordOf_of_encode rfl (encNnn_eq_or (by decide) nnn),
    _, rfl, zextByte_add_zextNnn_toNat _ nnn, s.keepsAllBut_setPc _⟩

/-! ### Skips -/

/-- An instruction that answers a skip on `c`, where `c` says that `p` holds, moves PC by 4 if `p` and by 2
if not, and does nothing else (40_flow.md R89). -/
theorem skips_of_skipIf {i : Instr} {s : State} {c : Bool} {p : Prop} [Decidable p]
    (hexec : exec i s = .next (s.skipIf c)) (hc : c = true ↔ p) :
    ∃ t, exec i s = .next t ∧ t.pc = (if p then s.pc + 4 else s.pc + 2) ∧ s.KeepsAllBut t [.pc] := by
  refine ⟨_, hexec, ?_, s.keepsAllBut_skipIf c⟩
  rw [State.skipIf_eq, State.setPc_pc]
  simp only [hc]

/-- Settles O19: both instructions are skips on the comparison of Vx with kk. -/
theorem skipsComparingWithImmediate : Obligations.SkipsComparingWithImmediate := fun x kk _ =>
  ⟨isWordOf_of_encode rfl (encXkk_eq_or (by decide) x kk),
    isWordOf_of_encode rfl (encXkk_eq_or (by decide) x kk),
    skips_of_skipIf rfl beq_iff_eq, skips_of_skipIf rfl bne_iff_ne⟩

/-- Family 5 has no instruction with a low nibble other than 0 (30_encoding.md R66). -/
theorem decode_encXyn_family5 {n : Nat} (h0 : 0 < n) (hn : n < 16) (x y : Reg) :
    decode (encXyn 0x5 x y n) = .error (.illegalFamily5 (encXyn 0x5 x y n)) := by
  simp [decode, decodeFamily5, fieldOp_encXyn, fieldN_encXyn, hn, h0.ne']

/-- Family 9 has no instruction with a low nibble other than 0 (30_encoding.md R66). -/
theorem decode_encXyn_family9 {n : Nat} (h0 : 0 < n) (hn : n < 16) (x y : Reg) :
    decode (encXyn 0x9 x y n) = .error (.illegalFamily9 (encXyn 0x9 x y n)) := by
  simp [decode, decodeFamily9, fieldOp_encXyn, fieldN_encXyn, hn, h0.ne']

/-- A word the decoder rejects, however it is written, is no instruction. -/
theorem not_decodes_of_error {v w : Word} {e : DecodeError} (h : decode v = .error e) (hw : v = w) :
    ¬ ∃ i, decode w = .ok i := by
  rintro ⟨i, hi⟩
  rw [← hw, h] at hi
  cases hi

/-- Settles O20: both instructions are skips on the comparison of Vx with Vy, and the decoder rejects every
other low nibble of the two families. -/
theorem skipsComparingRegisters : Obligations.SkipsComparingRegisters := fun x y _ =>
  ⟨isWordOf_of_encode rfl (encXyn_eq_or (by decide) (by decide) x y),
    isWordOf_of_encode rfl (encXyn_eq_or (by decide) (by decide) x y),
    fun _ h0 hn =>
      ⟨not_decodes_of_error (decode_encXyn_family5 h0 hn x y) (encXyn_eq_or_fieldAt (by decide) hn x y),
        not_decodes_of_error (decode_encXyn_family9 h0 hn x y) (encXyn_eq_or_fieldAt (by decide) hn x y)⟩,
    skips_of_skipIf rfl beq_iff_eq, skips_of_skipIf rfl bne_iff_ne⟩

end Sys2Proof.Machine

/-! The family alu. Register load, arithmetic, logic and shifts (spec/41_alu.md R101 to R111). -/

namespace Sys2Proof.Machine

/-! ### Results without a flag -/

/-- Settles O21: a load is one write of a register. -/
theorem loadImmediateWritesVx : Obligations.LoadImmediateWritesVx := fun x kk s =>
  ⟨isWordOf_of_encode rfl (encXkk_eq_or (by decide) x kk),
    _, rfl, s.wroteReg_advance_writeV x kk⟩

/-- Settles O22: the sum is written as data, and the second addition reads what the first one wrote. -/
theorem addImmediateWrapsWithoutFlag : Obligations.AddImmediateWrapsWithoutFlag := by
  refine ⟨fun x kk s => ⟨isWordOf_of_encode rfl (encXkk_eq_or (by decide) x kk), _, rfl, ?_⟩,
    fun x kk1 kk2 s => ⟨_, _, rfl, rfl, ?_⟩⟩
  · obtain ⟨-, hsum⟩ := BitVec.toNat_eq_nat.mp (BitVec.toNat_add (s.readV x) kk)
    exact hsum ▸ s.wroteReg_advance_writeV x _
  · rw [State.readV_writeV_self, State.readV_writeV_self, BitVec.toNat_add, BitVec.toNat_add,
      Nat.mod_add_mod]

/-- Settles O23: each of the four is one write of a register. -/
theorem copyAndLogicWriteVxOnly : Obligations.CopyAndLogicWriteVxOnly := fun x y s =>
  ⟨isWordOf_of_encode rfl (encXyn_eq_or (by decide) (by decide) x y),
    isWordOf_of_encode rfl (encXyn_eq_or (by decide) (by decide) x y),
    isWordOf_of_encode rfl (encXyn_eq_or (by decide) (by decide) x y),
    isWordOf_of_encode rfl (encXyn_eq_or (by decide) (by decide) x y),
    ⟨_, rfl, s.wroteReg_advance_writeV x _⟩, ⟨_, rfl, s.wroteReg_advance_writeV x _⟩,
    ⟨_, rfl, s.wroteReg_advance_writeV x _⟩, ⟨_, rfl, s.wroteReg_advance_writeV x _⟩⟩

/-! ### Results with a flag -/

/-- An instruction that answers a result and a flag, where the result holds the number `n` and the flag is the
byte `fb`, writes the two in that order and does nothing else (41_alu.md R100). -/
theorem wroteRegThenFlag_of_writeWithFlag {i : Instr} {s : State} {x : Reg} {b fb : Byte} {f : Bool} {n : Nat}
    (hexec : exec i s = .next (s.advance.writeWithFlag x b f)) (hb : b.toNat = n) (hf : flagByte f = fb) :
    ∃ t, exec i s = .next t ∧ s.WroteRegThenFlag t x (BitVec.ofNat 8 n) fb := by
  obtain ⟨-, rfl⟩ := BitVec.toNat_eq_nat.mp hb
  subst hf
  exact ⟨_, hexec, s.wroteRegThenFlag_advance x _ f⟩

theorem flagByte_carryOut (a b : Byte) :
    flagByte (carryOut a b) = if a.toNat + b.toNat > 255 then 1 else 0 := by
  simp [flagByte, carryOut]

theorem flagByte_noBorrow (a b : Byte) :
    flagByte (noBorrow a b) = if a.toNat ≥ b.toNat then 1 else 0 := by
  simp [flagByte, noBorrow]

/-- A bit of a number, as the byte VF receives. -/
theorem flagByte_testBit (n k : Nat) : flagByte (n.testBit k) = BitVec.ofNat 8 (n / 2 ^ k % 2) := by
  rw [Nat.testBit_eq_decide_div_mod_eq]
  obtain h | h := Nat.mod_two_eq_zero_or_one (n / 2 ^ k) <;> simp [flagByte, h]

theorem flagByte_lowBit (a : Byte) : flagByte (lowBit a) = BitVec.ofNat 8 (a.toNat % 2) := by
  rw [lowBit, BitVec.getLsbD, flagByte_testBit, pow_zero, Nat.div_one]

/-- Bit 7 is the only bit from 128 up. -/
theorem flagByte_highBit (a : Byte) : flagByte (highBit a) = BitVec.ofNat 8 (a.toNat / 128) := by
  have top : a.toNat / 2 ^ 7 % 2 = a.toNat / 128 := by omega
  rw [highBit, BitVec.getLsbD, flagByte_testBit, top]

/-- The 8-bit difference, borrowing 256 (41_alu.md R108, R110). -/
theorem byte_sub_toNat (a b : Byte) : (a - b).toNat = (a.toNat + 256 - b.toNat) % 256 := by
  rw [BitVec.toNat_sub]
  omega

theorem byte_shiftRight_one_toNat (a : Byte) : (a >>> 1).toNat = a.toNat / 2 :=
  BitVec.toNat_ushiftRight a 1 |>.trans (Nat.shiftRight_eq_div_pow _ 1)

theorem byte_shiftLeft_one_toNat (a : Byte) : (a <<< 1).toNat = a.toNat * 2 % 256 := by
  rw [BitVec.toNat_shiftLeft, Nat.shiftLeft_eq, pow_one]

/-- Settles O24: the sum modulo 256, and the carry out of it. -/
theorem addSetsCarryLast : Obligations.AddSetsCarryLast := fun x y _ =>
  ⟨isWordOf_of_encode rfl (encXyn_eq_or (by decide) (by decide) x y),
    wroteRegThenFlag_of_writeWithFlag rfl (BitVec.toNat_add _ _) (flagByte_carryOut _ _)⟩

/-- Settles O25: the difference Vx - Vy, and the absence of a borrow. -/
theorem subSetsNoBorrowLast : Obligations.SubSetsNoBorrowLast := fun x y _ =>
  ⟨isWordOf_of_encode rfl (encXyn_eq_or (by decide) (by decide) x y),
    wroteRegThenFlag_of_writeWithFlag rfl (byte_sub_toNat _ _) (flagByte_noBorrow _ _)⟩

/-- Settles O26: half of Vx, and its old bit 0. -/
theorem shiftRightOfVxIgnoresVy : Obligations.ShiftRightOfVxIgnoresVy := fun x y _ =>
  ⟨isWordOf_of_encode rfl (encXyn_eq_or (by decide) (by decide) x y), fun _ => rfl,
    wroteRegThenFlag_of_writeWithFlag rfl (byte_shiftRight_one_toNat _) (flagByte_lowBit _)⟩

/-- Settles O27: the difference Vy - Vx, and the absence of a borrow. -/
theorem reverseSubSetsNoBorrowLast : Obligations.ReverseSubSetsNoBorrowLast := fun x y _ =>
  ⟨isWordOf_of_encode rfl (encXyn_eq_or (by decide) (by decide) x y),
    wroteRegThenFlag_of_writeWithFlag rfl (byte_sub_toNat _ _) (flagByte_noBorrow _ _)⟩

/-- Settles O28: twice Vx modulo 256, and its old bit 7. -/
theorem shiftLeftOfVxIgnoresVy : Obligations.ShiftLeftOfVxIgnoresVy := fun x y _ =>
  ⟨isWordOf_of_encode rfl (encXyn_eq_or (by decide) (by decide) x y), fun _ => rfl,
    wroteRegThenFlag_of_writeWithFlag rfl (byte_shiftLeft_one_toNat _) (flagByte_highBit _)⟩

end Sys2Proof.Machine

/-! The family index_memory. The index register, and the loads and stores at I (spec/42_index_memory.md R122 to R130). -/

namespace Sys2Proof.Machine

/-! ### The index register -/

/-- Advancing and writing I changes PC and I only. -/
theorem State.keepsAllBut_advance_setI (s : State) (w : Word) :
    s.KeepsAllBut { s.advance with i := w } [.i, .pc] :=
  State.keepsAllBut_of_eq fun p hp => by cases p <;> simp_all

/-- A sum of a word and a byte wraps at 65536 (42_index_memory.md R123). -/
theorem word_add_zextByte_toNat (w : Word) (b : Byte) :
    (w + zextByte b).toNat = (w.toNat + b.toNat) % 65536 := by
  rw [BitVec.toNat_add, zextByte_toNat]

/-- Five times a byte fits a word (42_index_memory.md R124). -/
theorem five_mul_zextByte_toNat (b : Byte) : (5 * zextByte b).toNat = 5 * b.toNat := by
  have := b.isLt
  rw [BitVec.toNat_mul, zextByte_toNat]
  exact Nat.mod_eq_of_lt (show 5 * b.toNat < 65536 by omega)

/-- Settles O30: each of the three is one write of I. -/
theorem indexRegisterWrites : Obligations.IndexRegisterWrites :=
  ⟨fun nnn s => ⟨isWordOf_of_encode rfl (encNnn_eq_or (by decide) nnn),
      _, rfl, zextNnn_toNat nnn, rfl, s.keepsAllBut_advance_setI _⟩,
    fun x s => ⟨isWordOf_of_encode rfl (encX_eq_or (by decide) (by decide) x),
      _, rfl, word_add_zextByte_toNat _ _, fun _ => rfl, rfl, s.keepsAllBut_advance_setI _⟩,
    fun x s => ⟨isWordOf_of_encode rfl (encX_eq_or (by decide) (by decide) x),
      _, rfl, five_mul_zextByte_toNat _, rfl, s.keepsAllBut_advance_setI _⟩⟩

/-! ### Stores at I -/

/-- Advancing and storing at I changes PC and memory only. -/
theorem State.keepsAllBut_advance_storeAtI (s : State) (bs : List Byte) :
    s.KeepsAllBut (s.advance.storeAtI bs) [.mem, .pc] :=
  State.keepsAllBut_of_eq fun p hp => by cases p <;> simp_all

/-- A store at I changes memory at its own addresses only. -/
theorem State.keepsMemoryButAtI_advance_storeAtI (s : State) (bs : List Byte) :
    s.KeepsMemoryButAtI (s.advance.storeAtI bs) bs.length :=
  fun _ outside => State.storeAtI_read_outside (s := s.advance) outside

/-- A store of the registers V0 to Vx puts each of them at its own offset from I. -/
theorem State.read_advance_storeAtI_regBlock {s : State} (hm : s.mem.wf) {x r : Reg} (hr : r ≤ x) :
    (s.advance.storeAtI (s.regBlock x)).mem.read (s.effAddr r.val) = s.readV r := by
  have hlen : (s.regBlock x).length ≤ 16 := by rw [State.regBlock_length]; exact x.isLt
  have hk : r.val < (s.regBlock x).length := by rw [State.regBlock_length]; exact Nat.lt_succ_of_le hr
  calc _ = (s.regBlock x)[r.val] := State.storeAtI_read_self (s := s.advance) hm hlen hk
    _ = s.readV r := by rw [State.regBlock_getElem, blockReg_self]

theorem wordOfBytes_toNat (hi lo : Byte) : (wordOfBytes hi lo).toNat = hi.toNat * 256 + lo.toNat :=
  BitVec.toNat_ofNat .. |>.trans (Nat.mod_eq_of_lt (by omega))

/-- Settles O31: one store at I, of the three digits. -/
theorem storeDecimalDigitsAtI : Obligations.StoreDecimalDigitsAtI := fun x s =>
  ⟨isWordOf_of_encode rfl (encX_eq_or (by decide) (by decide) x), fun hm => by
    have digit {k : Nat} (hk : k < 3) :
        (s.advance.storeAtI (bcdDigits (s.readV x))).mem.read (s.effAddr k) =
          (bcdDigits (s.readV x))[k] :=
      State.storeAtI_read_self (s := s.advance) hm (by simp) hk
    exact ⟨_, rfl, digit (by decide), digit (by decide), digit (by decide),
      s.keepsMemoryButAtI_advance_storeAtI _, rfl, s.keepsAllBut_advance_storeAtI _⟩⟩

/-- Settles O33: one store at I, of the registers V0 to Vx. -/
theorem storeRegistersAtI : Obligations.StoreRegistersAtI := fun x s =>
  ⟨isWordOf_of_encode rfl (encX_eq_or (by decide) (by decide) x), fun hm =>
    ⟨_, rfl, fun _ hr => State.read_advance_storeAtI_regBlock hm hr,
      s.regBlock_length x ▸ s.keepsMemoryButAtI_advance_storeAtI _,
      rfl, s.keepsAllBut_advance_storeAtI _, wordOfBytes_toNat _ _⟩⟩

/-! ### Loads from I -/

/-- Advancing and loading from I changes PC and general registers only. -/
theorem State.keepsAllBut_advance_loadFromI (s : State) (count : Nat) :
    s.KeepsAllBut (s.advance.loadFromI count) [.v, .pc] :=
  State.keepsAllBut_of_eq fun p hp => by cases p <;> simp_all

/-- Settles O34: one load from I, into the registers V0 to Vx. -/
theorem loadRegistersFromI : Obligations.LoadRegistersFromI := fun x s => by
  refine ⟨isWordOf_of_encode rfl (encX_eq_or (by decide) (by decide) x),
    _, rfl, fun r => ?_, by simp, s.keepsAllBut_advance_loadFromI _⟩
  rw [State.readV_loadFromI _ x.isLt, State.advance_byteAtI, State.advance_readV]
  simp only [Fin.le_def, Nat.lt_succ_iff, State.byteAtI]

/-- Settles O35, from what Fx55 stores (R128) and what Fx65 loads (R129): the store keeps I, so both run over the
same addresses. -/
theorem storeThenLoadReproducesRegisters : Obligations.StoreThenLoadReproducesRegisters := by
  intro x s hm
  obtain ⟨t, hstore, hstored, -, -, hkeep, -⟩ := (storeRegistersAtI x s).2 hm
  obtain ⟨-, u, hload, hloaded, -⟩ := loadRegistersFromI x { t with v := Vector.replicate 16 0 }
  have same_i : t.i = s.i := hkeep .i (by decide)
  refine ⟨t, u, hstore, hload, fun r => ?_⟩
  rw [hloaded r]
  split
  · next hr =>
    rw [← hstored r hr, State.effAddr, State.effAddr, same_i]
  · exact Vector.getElem_replicate r.isLt

end Sys2Proof.Machine

/-! The family display. Clearing the display, and the collision flag of Dxyn (spec/43_display.md R140, R142). -/

namespace Sys2Proof.Machine

/-! ### Clearing -/

/-- Settles O37: every pixel of the blank frame is off, and no other piece but the dirty flag and PC is written. -/
theorem clearTurnsEveryPixelOff : Obligations.ClearTurnsEveryPixelOff := by
  refine ⟨isWordOf_of_encode rfl rfl, fun s => ⟨_, rfl, Frame.get_blankFrame, rfl, rfl, ?_⟩⟩
  exact State.keepsAllBut_of_eq fun p hp => by cases p <;> simp_all

/-! ### The collision flag -/

/-- A draw hits exactly when it turns a pixel off: a hit is a pixel that is on under a sprite bit of 1, and no
place outside the sprite changes (43_display.md R142). -/
theorem State.drawSprite_hit_iff_turns_off (s : State) (vx vy : Byte) {n : Nat} (hn : n ≤ 32) :
    (s.drawSprite vx vy n).hit = true ↔
      ∃ row col, s.pixel row col = true ∧ (s.drawSprite vx vy n).fb.get row col = false := by
  rw [State.drawSprite_hit s vx vy hn]
  constructor
  · rintro ⟨r, hr, c, hc, bit, on⟩
    exact ⟨wrapRow vy r, wrapCol vx c, on, by rw [State.drawSprite_get s vx vy hn hr hc, bit, on]; rfl⟩
  · rintro ⟨row, col, on, off⟩
    by_cases inside : ∃ r < n, ∃ c < 8, row = wrapRow vy r ∧ col = wrapCol vx c
    · obtain ⟨r, hr, c, hc, rfl, rfl⟩ := inside
      rw [State.drawSprite_get s vx vy hn hr hc, show s.fb.get _ _ = true from on] at off
      exact ⟨r, hr, c, hc, by simpa using off, on⟩
    · have kept := s.drawSprite_get_outside vx vy fun r hr c hc e => inside ⟨r, hr, c, hc, e⟩
      exact absurd (on.symm.trans (kept.symm.trans off)) (by decide)

/-- Settles O39: VF becomes 1 on a hit only, and a hit is a pixel turned off. -/
theorem collisionFlagAccumulates : Obligations.CollisionFlagAccumulates := by
  intro x y n s hn
  have hit := s.drawSprite_hit_iff_turns_off (s.readV x) (s.readV y) (n := n) (by omega)
  refine ⟨_, rfl, ?_⟩
  simp only [State.writeCollision_pixel, State.readV_writeCollision, and_true]
  exact ⟨fun some_off => if_pos (hit.mpr some_off), fun none_off => if_neg (mt hit.mp none_off)⟩

end Sys2Proof.Machine

/-! The family exceptions. TICK, the sound flag, and the image too long to load (spec/60_exceptions.md R178, R184, R186). -/

namespace Sys2Proof.Machine

/-! ### TICK -/

/-- Counting down is truncated subtraction: 0 stays 0, and nothing wraps to 255 (60_exceptions.md R184). -/
theorem countDown_toNat (t : Byte) : (countDown t).toNat = t.toNat - 1 := by
  unfold countDown
  split
  · next zero => rw [zero]; rfl
  · next nonzero =>
    have le : 1 ≤ t.toNat := Nat.pos_of_ne_zero fun h => nonzero (BitVec.eq_of_toNat_eq h)
    exact BitVec.toNat_sub_of_le le

/-- TICK changes the two timers only. -/
theorem keepsAllBut_tickEvent (s : State) : s.KeepsAllBut (tickEvent s) [.dt, .st] :=
  State.keepsAllBut_of_eq fun p hp => by cases p <;> simp_all [tickEvent]

/-- Settles O45: TICK counts each timer down on its own. -/
theorem tickCountsBothTimersDown : Obligations.TickCountsBothTimersDown := fun s =>
  ⟨_, rfl, countDown_toNat s.dt, countDown_toNat s.st, keepsAllBut_tickEvent s⟩

/-! ### The sound flag -/

theorem State.sound_iff (s : State) : s.sound = true ↔ 0 < s.st.toNat := decide_eq_true_iff

theorem State.sound_iff_st_ne_zero (s : State) : s.sound = true ↔ s.st ≠ 0 := by
  rw [State.sound_iff, Nat.pos_iff_ne_zero]
  exact not_congr (BitVec.toNat_inj (y := 0))

theorem State.sound_eq_false_of_st {s : State} (h : s.st = 0) : s.sound = false :=
  Bool.eq_false_iff.mpr (mt s.sound_iff_st_ne_zero.mp (not_not_intro h))

/-- Settles O47: the sound flag is a reading of ST, so each clause is what its operation leaves in ST: Vx after
Fx18, 1 - 1 after the TICK, 0 after RESET. -/
theorem soundIsSoundTimerAboveZero : Obligations.SoundIsSoundTimerAboveZero := by
  refine ⟨State.sound_iff, fun x s => ⟨_, rfl, State.sound_iff_st_ne_zero _⟩, fun s one => ?_,
    fun font s => ⟨_, rfl, State.sound_eq_false_of_st rfl⟩⟩
  have started : s.sound = true := s.sound_iff_st_ne_zero.mpr (one ▸ by decide)
  have ended : (tickEvent s).st = 0 := show countDown s.st = 0 from one ▸ rfl
  exact ⟨_, rfl, started, State.sound_eq_false_of_st ended⟩

/-! ### The image too long to load -/

/-- Recording LOAD's report changes the model's bookkeeping only. -/
theorem State.keepsAllBut_report (s : State) (r : LoadReport) : s.KeepsAllBut (s.report r) [.env] :=
  State.keepsAllBut_of_eq fun p hp => by cases p <;> simp_all

/-- Settles O51: the first LOAD of an overlong image answers its report and nothing else. -/
theorem overlongImageIsReportedAndChangesNothing : Obligations.OverlongImageIsReportedAndChangesNothing :=
  fun _ s first unloaded overlong =>
    ⟨_, loadEvent_overflow first unloaded overlong, rfl, s.keepsAllBut_report _⟩

end Sys2Proof.Machine

/-! The encoding. Words and instructions determine each other; the decoder and the opcode map agree; the illegal words
(spec/30_encoding.md R61 to R67). -/

namespace Sys2Proof.Machine

/-! ### From the instruction to its word and back -/

/-- Settles O1: the decoder reads the word back, and the word's two bytes make up the word again. -/
theorem decodeOfEncodeGivesTheInstruction : Obligations.DecodeOfEncodeGivesTheInstruction := by
  intro i wf
  refine ⟨decode_encode wf, fun rest => ?_⟩
  simp only [encodeBytes, List.cons_append, List.nil_append, decodeBytes, wordOfBytes_high_low,
    decode_encode wf]

/-! ### From a word to its instruction and back -/

theorem encode_of_decodeFamily0 {w : Word} {i : Instr} (h : decodeFamily0 w = .ok i) :
    encode i = w ∧ i.wellFormed = true := by
  unfold decodeFamily0 at h
  split_ifs at h with hcls hret <;> cases h
  · exact ⟨hcls.symm, rfl⟩
  · exact ⟨hret.symm, rfl⟩

theorem encode_of_decodeFamily5 {w : Word} (hop : fieldOp w = 5) {i : Instr} (h : decodeFamily5 w = .ok i) :
    encode i = w ∧ i.wellFormed = true := by
  unfold decodeFamily5 at h
  split_ifs at h with hn
  cases h
  exact ⟨encXyn_of_fields hop hn, rfl⟩

theorem encode_of_decodeFamily8 {w : Word} (hop : fieldOp w = 8) {i : Instr} (h : decodeFamily8 w = .ok i) :
    encode i = w ∧ i.wellFormed = true := by
  unfold decodeFamily8 at h
  split at h
  case h_10 => cases h
  all_goals
    next hn =>
      cases h
      exact ⟨encXyn_of_fields hop hn, rfl⟩

theorem encode_of_decodeFamily9 {w : Word} (hop : fieldOp w = 9) {i : Instr} (h : decodeFamily9 w = .ok i) :
    encode i = w ∧ i.wellFormed = true := by
  unfold decodeFamily9 at h
  split_ifs at h with hn
  cases h
  exact ⟨encXyn_of_fields hop hn, rfl⟩

theorem encode_of_decodeFamilyE {w : Word} (hop : fieldOp w = 14) {i : Instr} (h : decodeFamilyE w = .ok i) :
    encode i = w ∧ i.wellFormed = true := by
  unfold decodeFamilyE at h
  split_ifs at h with hs hs <;> cases h
  all_goals exact ⟨encX_of_fields hop hs, rfl⟩

theorem encode_of_decodeFamilyF {w : Word} (hop : fieldOp w = 15) {i : Instr} (h : decodeFamilyF w = .ok i) :
    encode i = w ∧ i.wellFormed = true := by
  unfold decodeFamilyF at h
  split_ifs at h with hs hs hs hs hs hs hs hs hs <;> cases h
  all_goals exact ⟨encX_of_fields hop hs, rfl⟩

/-- A sprite's height, read from a word, fits its field. -/
theorem wellFormed_drwVxVyN_fieldN (x y : Reg) (w : Word) :
    (Instr.drwVxVyN x y (fieldN w)).wellFormed = true :=
  decide_eq_true (Nat.le_of_lt_succ (Nat.mod_lt _ (by decide)))

/-- Settles O2, along the decoder's dispatch: every arm puts the fields of the word into the format it took them
from. -/
theorem encodeOfDecodeGivesTheWord : Obligations.EncodeOfDecodeGivesTheWord := by
  intro w i h
  unfold decode at h
  split at h
  case h_1 => exact encode_of_decodeFamily0 h
  case h_6 hop => exact encode_of_decodeFamily5 hop h
  case h_9 hop => exact encode_of_decodeFamily8 hop h
  case h_10 hop => exact encode_of_decodeFamily9 hop h
  case h_14 hop => cases h; exact ⟨encXyn_of_fields hop rfl, wellFormed_drwVxVyN_fieldN _ _ w⟩
  case h_15 hop => exact encode_of_decodeFamilyE hop h
  case h_16 =>
    have := fieldOp_lt w
    simp only [imp_false] at *
    exact encode_of_decodeFamilyF (by omega) h
  case h_2 hop | h_3 hop | h_11 hop | h_12 hop => cases h; exact ⟨encNnn_of_fields hop, rfl⟩
  case h_4 hop | h_5 hop | h_7 hop | h_8 hop | h_13 hop => cases h; exact ⟨encXkk_of_fields hop, rfl⟩

/-! ### Which words decode, family by family -/

/-- The families in which every word is an instruction (30_encoding.md R65). -/
def wholeFamilies : List Nat := [1, 2, 3, 4, 6, 7, 10, 11, 12, 13]

theorem decodes_wholeFamily {w : Word} (hop : fieldOp w ∈ wholeFamilies) : ∃ i, decode w = .ok i := by
  simp only [wholeFamilies, List.mem_cons, List.not_mem_nil, or_false] at hop
  rcases hop with h | h | h | h | h | h | h | h | h | h <;> simp [decode, h]

theorem decodes_family0 {w : Word} (hop : fieldOp w = 0) :
    (∃ i, decode w = .ok i) ↔ w = 0x00E0 ∨ w = 0x00EE := by
  rw [decode, hop]
  simp only [decodeFamily0]
  split_ifs <;> simp_all

theorem decodes_family5 {w : Word} (hop : fieldOp w = 5) : (∃ i, decode w = .ok i) ↔ fieldN w = 0 := by
  rw [decode, hop]
  simp only [decodeFamily5]
  split_ifs <;> simp_all

theorem decodes_family8 {w : Word} (hop : fieldOp w = 8) :
    (∃ i, decode w = .ok i) ↔ fieldN w ∈ [0, 1, 2, 3, 4, 5, 6, 7, 14] := by
  rw [decode, hop]
  simp only [decodeFamily8]
  split <;> simp_all

theorem decodes_family9 {w : Word} (hop : fieldOp w = 9) : (∃ i, decode w = .ok i) ↔ fieldN w = 0 := by
  rw [decode, hop]
  simp only [decodeFamily9]
  split_ifs <;> simp_all

theorem decodes_familyE {w : Word} (hop : fieldOp w = 14) :
    (∃ i, decode w = .ok i) ↔ selKk w ∈ [0x9E, 0xA1] := by
  rw [decode, hop]
  simp only [decodeFamilyE]
  split_ifs <;> simp_all

theorem decodes_familyF {w : Word} (hop : fieldOp w = 15) :
    (∃ i, decode w = .ok i) ↔
      selKk w ∈ [0x07, 0x0A, 0x15, 0x18, 0x1E, 0x29, 0x33, 0x55, 0x65] := by
  rw [decode, hop]
  simp only [decodeFamilyF]
  split_ifs <;> simp_all

/-- The opcode nibble of a word names one of the six families with illegal words, or a family without any. -/
theorem fieldOp_cases (w : Word) :
    fieldOp w = 0 ∨ fieldOp w = 5 ∨ fieldOp w = 8 ∨ fieldOp w = 9 ∨ fieldOp w = 14 ∨ fieldOp w = 15 ∨
      fieldOp w ∈ wholeFamilies := by
  have := fieldOp_lt w
  simp only [wholeFamilies, List.mem_cons, List.not_mem_nil, or_false]
  omega

/-- Settles O4, family by family. -/
theorem illegalWordsAreTheListedFamilies : Obligations.IllegalWordsAreTheListedFamilies := by
  intro w
  change _ ↔ (fieldOp w = 0 ∧ _) ∨ (fieldOp w = 5 ∧ fieldN w ≠ 0) ∨ (fieldOp w = 8 ∧ fieldN w ∈ _) ∨
    (fieldOp w = 9 ∧ fieldN w ≠ 0) ∨ (fieldOp w = 14 ∧ selKk w ∉ _) ∨ (fieldOp w = 15 ∧ selKk w ∉ _)
  have hn : fieldN w < 16 := Nat.mod_lt _ (by decide)
  rcases fieldOp_cases w with hop | hop | hop | hop | hop | hop | hop
  · rw [decodes_family0 hop]; simp [hop]
  · rw [decodes_family5 hop]; simp [hop]
  · rw [decodes_family8 hop]; simp [hop]; omega
  · rw [decodes_family9 hop]; simp [hop]
  · rw [decodes_familyE hop]; simp [hop]
  · rw [decodes_familyF hop]; simp [hop]
  · simp only [decodes_wholeFamily hop, not_true_eq_false, false_iff]
    simp only [wholeFamilies, List.mem_cons, List.not_mem_nil, or_false] at hop
    omega

/-! ### The opcode map -/

/-- A row whose mask is the opcode nibble and the low `k` bits selects the words that agree with its value in
both. -/
theorem OpcodeRow.selects_iff {row : OpcodeRow} {k : Nat} (hk : k ≤ 12)
    (hm : row.mask.toNat = 0xF000 + (2 ^ k - 1)) (w : Word) :
    row.selects w = true ↔
      fieldOp w = row.value.toNat / 4096 ∧ w.toNat % 2 ^ k = row.value.toNat % 4096 := by
  have hp : 2 ^ k ≤ 2 ^ 12 := Nat.pow_le_pow_right (by decide) hk
  have high : (w.toNat &&& row.mask.toNat) / 2 ^ 12 = w.toNat / 4096 := by
    rw [Nat.and_div_two_pow, hm, show (0xF000 + (2 ^ k - 1)) / 2 ^ 12 = 2 ^ 4 - 1 by omega,
      Nat.and_two_pow_sub_one_eq_mod]
    omega
  have low : (w.toNat &&& row.mask.toNat) % 2 ^ 12 = w.toNat % 2 ^ k := by
    rw [Nat.and_mod_two_pow, hm, show (0xF000 + (2 ^ k - 1)) % 2 ^ 12 = 2 ^ k - 1 by omega,
      Nat.and_two_pow_sub_one_eq_mod, Nat.mod_mod_of_dvd _ (Nat.pow_dvd_pow 2 hk)]
  rw [OpcodeRow.selects, beq_iff_eq, ← BitVec.toNat_inj, BitVec.toNat_and, fieldOp]
  omega

/-- Two rows that a word selects agree where both masks look, and no two rows of the map do. -/
theorem OpcodeRow.eq_of_selects {w : Word} {r r' : OpcodeRow} (hr : r ∈ opcodeTable) (hr' : r' ∈ opcodeTable)
    (h : r.selects w = true) (h' : r'.selects w = true) : r = r' := by
  have apart : ∀ r ∈ opcodeTable, ∀ r' ∈ opcodeTable, r.value &&& r'.mask = r'.value &&& r.mask → r = r' := by
    decide
  rw [OpcodeRow.selects, beq_iff_eq] at h h'
  refine apart r hr r' hr' ?_
  rw [← h, ← h', BitVec.and_assoc, BitVec.and_assoc, BitVec.and_comm r.mask]

/-- A word whose opcode nibble and low bits are those of the row's value selects the row. -/
theorem OpcodeRow.selects_of_fields {row : OpcodeRow} {w : Word} {k op low : Nat} (hk : k ≤ 12)
    (hm : row.mask.toNat = 0xF000 + (2 ^ k - 1)) (hop : fieldOp w = op) (hlow : w.toNat % 2 ^ k = low)
    (hv : row.value.toNat = op * 4096 + low) : row.selects w = true := by
  have lt : w.toNat % 2 ^ k < 2 ^ 12 :=
    lt_of_lt_of_le (Nat.mod_lt _ (Nat.two_pow_pos k)) (Nat.pow_le_pow_right (by decide) hk)
  exact (OpcodeRow.selects_iff hk hm w).mpr ⟨by omega, by omega⟩

/-- The word of an instruction selects the instruction's row. -/
theorem row_selects_encode {i : Instr} (wf : i.wellFormed = true) : i.row.selects (encode i) = true := by
  cases i
  case cls | ret => decide
  case jpNnn | callNnn | ldINnn | jpV0Nnn =>
    exact OpcodeRow.selects_of_fields (k := 0) (by decide) rfl (fieldOp_encNnn (by decide) _) (Nat.mod_one _) rfl
  case seVxKk | sneVxKk | ldVxKk | addVxKk | rndVxKk =>
    exact OpcodeRow.selects_of_fields (k := 0) (by decide) rfl (fieldOp_encXkk (by decide) _ _) (Nat.mod_one _) rfl
  case drwVxVyN x y n =>
    have hn : n < 16 := Nat.lt_succ_of_le (of_decide_eq_true wf)
    exact OpcodeRow.selects_of_fields (k := 0) (by decide) rfl (fieldOp_encXyn (by decide) hn _ _) (Nat.mod_one _) rfl
  case skpVx | sknpVx | ldVxDt | ldVxK | ldDtVx | ldStVx | addIVx | ldFVx | ldBVx | ldMemVx | ldVxMem =>
    exact OpcodeRow.selects_of_fields (k := 8) (by decide) rfl (fieldOp_encX (by decide) (by decide) _)
      (selKk_encX (by decide) (by decide) _) rfl
  all_goals
    exact OpcodeRow.selects_of_fields (k := 4) (by decide) rfl (fieldOp_encXyn (by decide) (by decide) _ _)
      (fieldN_encXyn (by decide) (by decide) _ _) rfl

/-- The 34 rows by the bits they look at, with the values those bits take (30_encoding.md R64). -/
theorem opcodeTable_by_mask : ∀ row ∈ opcodeTable,
    (row.mask = 0xFFFF ∧ (row.value = 0x00E0 ∨ row.value = 0x00EE)) ∨
    (row.mask = 0xF000 ∧ row.value.toNat / 4096 ∈ wholeFamilies) ∨
    (row.mask = 0xF00F ∧
      (row.value.toNat / 4096 = 5 ∧ row.value.toNat % 4096 = 0 ∨
        row.value.toNat / 4096 = 8 ∧ row.value.toNat % 4096 ∈ [0, 1, 2, 3, 4, 5, 6, 7, 14] ∨
        row.value.toNat / 4096 = 9 ∧ row.value.toNat % 4096 = 0)) ∨
    (row.mask = 0xF0FF ∧
      (row.value.toNat / 4096 = 14 ∧ row.value.toNat % 4096 ∈ [0x9E, 0xA1] ∨
        row.value.toNat / 4096 = 15 ∧
          row.value.toNat % 4096 ∈ [0x07, 0x0A, 0x15, 0x18, 0x1E, 0x29, 0x33, 0x55, 0x65])) := by
  decide

/-- A word that selects a row decodes. -/
theorem decodes_of_selects {w : Word} {row : OpcodeRow} (hrow : row ∈ opcodeTable)
    (h : row.selects w = true) : ∃ i, decode w = .ok i := by
  rcases opcodeTable_by_mask row hrow with ⟨hm, hv⟩ | ⟨hm, hop⟩ | ⟨hm, hv⟩ | ⟨hm, hv⟩
  · have hw : w = row.value := by
      rw [OpcodeRow.selects, beq_iff_eq, hm] at h
      exact h ▸ (BitVec.and_allOnes (x := w)).symm
    rcases hv with hv | hv <;> exact ⟨_, by rw [hw, hv]; rfl⟩
  · obtain ⟨hop', -⟩ := (OpcodeRow.selects_iff (k := 0) (by decide) (hm ▸ rfl) w).mp h
    exact decodes_wholeFamily (hop' ▸ hop)
  · obtain ⟨hop', (hn : fieldN w = _)⟩ := (OpcodeRow.selects_iff (k := 4) (by decide) (hm ▸ rfl) w).mp h
    rcases hv with ⟨hop, hv⟩ | ⟨hop, hv⟩ | ⟨hop, hv⟩
    · exact (decodes_family5 (hop'.trans hop)).mpr (hn.trans hv)
    · exact (decodes_family8 (hop'.trans hop)).mpr (hn ▸ hv)
    · exact (decodes_family9 (hop'.trans hop)).mpr (hn.trans hv)
  · obtain ⟨hop', (hs : selKk w = _)⟩ := (OpcodeRow.selects_iff (k := 8) (by decide) (hm ▸ rfl) w).mp h
    rcases hv with ⟨hop, hv⟩ | ⟨hop, hv⟩
    · exact (decodes_familyE (hop'.trans hop)).mpr (hs ▸ hv)
    · exact (decodes_familyF (hop'.trans hop)).mpr (hs ▸ hv)

/-- The row of every instruction stands in the opcode map. -/
theorem row_mem_opcodeTable (i : Instr) : i.row ∈ opcodeTable := by
  cases i <;> simp only [Instr.row] <;> decide

/-- A word that decodes selects the row of its instruction. -/
theorem row_selects_of_decode {w : Word} {i : Instr} (h : decode w = .ok i) : i.row.selects w = true := by
  obtain ⟨hw, wf⟩ := encodeOfDecodeGivesTheWord w i h
  exact hw ▸ row_selects_encode wf

/-- Settles O3: the word of an instruction selects the instruction's row, a word that selects a row decodes, and since
no word selects two rows, it decodes to an instruction of that row. -/
theorem decodeAgreesWithTheOpcodeMap : Obligations.DecodeAgreesWithTheOpcodeMap := by
  refine ⟨rfl, fun w r hr r' hr' => OpcodeRow.eq_of_selects hr hr',
    fun w i h => ⟨row_mem_opcodeTable i, row_selects_of_decode h⟩, fun w r hr h => ?_⟩
  obtain ⟨i, hi⟩ := decodes_of_selects hr h
  exact ⟨i, hi, OpcodeRow.eq_of_selects (row_mem_opcodeTable i) hr (row_selects_of_decode hi) h⟩

/-- Settles O5: each word is written out, and the decoder computes. -/
theorem sampleWordsDecode : Obligations.SampleWordsDecode := by
  unfold Obligations.SampleWordsDecode
  decide

end Sys2Proof.Machine

/-! The STEP event. What the machine's step is, when it faults and what a fault leaves
(spec/30_encoding.md R60, spec/60_exceptions.md R170 to R177). -/

namespace Sys2Proof.Machine

/-! ### Fetch and dispatch -/

/-- Settles O6: the two bytes fit the word they make up. -/
theorem fetchIsBigEndianAndMasked : Obligations.FetchIsBigEndianAndMasked := fun _ => wordOfBytes_toNat _ _

/-- Settles O7: the two agendas name the byte of the STEP, and the word decodes alike in both. -/
theorem stepRunsTheDecodedInstruction : Obligations.StepRunsTheDecodedInstruction := fun s _ running hd =>
  ⟨fun free => (step_free free).trans (stepEvent_decoded running hd none),
    fun rnd rest waiting => (step_agenda waiting).trans
      (stepEvent_decoded (s := { s with env := { s.env with agenda := rest } }) running hd (some rnd))⟩

/-- Settles O8: the two cases of the agenda. -/
theorem eventsHappenInTheAgendasOrder : Obligations.EventsHappenInTheAgendasOrder :=
  fun _ => ⟨step_free, fun _ _ => step_agenda⟩

/-! ### A STEP that faults -/

/-- What a STEP that takes fault `c` leaves: the latch, and the host's byte gone. -/
def State.faulted (s : State) (c : FaultCause) : State :=
  { s with
    halt := .halted c s.pc s.fetchWord
    env := { s.env with stepped := true, rndArg := none } }

theorem State.keepsAllBut_faulted (s : State) (c : FaultCause) : s.KeepsAllBut (s.faulted c) [.halt, .env] :=
  State.keepsAllBut_of_eq fun p hp => by cases p <;> simp_all [State.faulted]

/-- A running STEP that takes a fault latches it with the word fetched, since a word is the encoding of what it
decodes to. -/
theorem stepEvent_fault {s : State} (running : s.halt = .running) {c : FaultCause}
    (hc : s.faultOfStep = some c) (r : Option Byte) : stepEvent r s = .next (s.faulted c) := by
  rcases stepEvent_cases running r with ⟨c', w, hc', hok, herr, hstep⟩ | ⟨hnone, -⟩
  · obtain rfl : c' = c := Option.some.inj (hc'.symm.trans hc)
    have hw : w = s.fetchWord := by
      cases hd : decode s.fetchWord with
      | ok i => exact (hok i hd).trans (encodeOfDecodeGivesTheWord _ i hd).1
      | error e => exact herr ⟨e, hd⟩
    rw [hstep, hw]
    rfl
  · exact absurd (hnone.symm.trans hc) (by simp)

/-- A running STEP that takes no fault runs the decoded instruction. -/
theorem stepEvent_run {s : State} (running : s.halt = .running) (hc : s.faultOfStep = none) (r : Option Byte) :
    ∃ i t, decode s.fetchWord = .ok i ∧ exec i (s.beginStep r) = .next t ∧ Ran (s.beginStep r) t ∧
      stepEvent r s = .next t.endStep := by
  rcases stepEvent_cases running r with ⟨c, w, hc', -⟩ | ⟨-, h⟩
  · exact absurd (hc.symm.trans hc') (by simp)
  · exact h

/-- A running STEP leaves the engine running, or takes the fault the state is about to take. -/
theorem stepEvent_running_halt {s : State} (running : s.halt = .running) (r : Option Byte) :
    (s.faultOfStep = none ∧ ∃ t, stepEvent r s = .next t ∧ t.halt = .running) ∨
      ∃ c, s.faultOfStep = some c ∧ stepEvent r s = .next (s.faulted c) := by
  cases hc : s.faultOfStep with
  | none =>
    obtain ⟨i, t, -, -, ran, hstep⟩ := stepEvent_run running hc r
    exact .inl ⟨rfl, _, hstep, ran.halt.trans running⟩
  | some c => exact .inr ⟨c, rfl, stepEvent_fault running hc r⟩

/-- Settles O9: a word that is no instruction is a fault of its own. -/
theorem illegalWordHaltsTheEngine : Obligations.IllegalWordHaltsTheEngine := by
  intro s rnd running illegal
  have hc : s.faultOfStep = some .illegalOpcode := by
    cases hd : decode s.fetchWord with
    | ok i => exact absurd ⟨i, hd⟩ illegal
    | error e => rw [State.faultOfStep, hd]
  exact ⟨_, stepEvent_fault running hc rnd, rfl, s.keepsAllBut_faulted _⟩

/-- Settles O11: a STEP that ends halted is one that took its fault. -/
theorem faultingStepChangesOnlyTheLatch : Obligations.FaultingStepChangesOnlyTheLatch := by
  intro s t rnd c p w running hstep halted
  rcases stepEvent_running_halt running rnd with ⟨-, u, hu, urunning⟩ | ⟨c', -, hu⟩
  · obtain rfl : u = t := Host.Outcome.next.inj (hu.symm.trans hstep)
    exact absurd (urunning.symm.trans halted) (by simp)
  · obtain rfl : s.faulted c' = t := Host.Outcome.next.inj (hu.symm.trans hstep)
    cases halted
    exact ⟨rfl, rfl, s.keepsAllBut_faulted _, rfl⟩

/-- Settles O12: the two cases of the fault the state is about to take. -/
theorem stepFaultsExactlyAsListed : Obligations.StepFaultsExactlyAsListed := by
  intro s rnd running
  rcases stepEvent_running_halt running rnd with ⟨hc, t, hstep, trunning⟩ | ⟨c, hc, hstep⟩
  · exact ⟨t, hstep, by rw [hc, trunning]⟩
  · exact ⟨_, hstep, by rw [hc]; rfl⟩

/-! ### Every event -/

/-- STEP always answers. -/
theorem stepEvent_answers (r : Option Byte) (s : State) : ∃ t, stepEvent r s = .next t := by
  by_cases running : s.halt = .running
  · obtain ⟨t, hstep, -⟩ := stepFaultsExactlyAsListed s r running
    exact ⟨t, hstep⟩
  · exact ⟨s, stepEvent_halted running r⟩

/-- LOAD is refused out of order, or it reports, with memory as it was or with the image stored
(70_reset_and_hazards.md R203, R204). -/
theorem loadEvent_cases (image : List Byte) (s : State) :
    ((s.env.stepped = true ∨ s.env.loadReport ≠ none) ∧ loadEvent image s = .refused .loadOutOfOrder) ∨
    (s.env.stepped = false ∧ ∃ m r, (m = s.mem ∨ m = s.mem.store Config.resetPc.toNat image) ∧
      loadEvent image s = .next (State.report { s with mem := m } r)) := by
  by_cases late : s.env.stepped = true ∨ s.env.loadReport ≠ none
  · exact .inl ⟨late, loadEvent_late late image⟩
  · simp only [not_or, not_not, Bool.not_eq_true] at late
    obtain ⟨first, unloaded⟩ := late
    rcases Nat.lt_or_ge Config.loadLimit image.length with long | short
    · exact .inr ⟨first, _, _, .inl rfl, loadEvent_overflow first unloaded long⟩
    · exact .inr ⟨first, _, _, .inr rfl, loadEvent_accepted first unloaded short⟩

/-- Settles O13: every event but LOAD answers, and LOAD is refused out of order only. -/
theorem onlyAnOutOfOrderLoadIsRefused : Obligations.OnlyAnOutOfOrderLoadIsRefused := by
  intro s
  cases agenda : s.env.agenda with
  | nil => exact .inl (step_free agenda ▸ stepEvent_answers none s)
  | cons e rest =>
    rw [step_agenda agenda]
    cases e with
    | load image =>
      rcases loadEvent_cases image { s with env := { s.env with agenda := rest } } with
        ⟨late, refused⟩ | ⟨-, _, _, -, accepted⟩
      · exact .inr ⟨refused, image, rest, rfl, late⟩
      · exact .inl ⟨_, accepted⟩
    | step rnd => exact .inl (stepEvent_answers (some rnd) _)
    | reset | tick | setKey | ackFrame => exact .inl ⟨_, rfl⟩

/-- Settles O10: STEP ignores a halted engine, and no event but RESET writes the latch. -/
theorem haltedEngineLeavesOnlyByReset : Obligations.HaltedEngineLeavesOnlyByReset := by
  intro s c p w halted
  have stuck : ∀ rnd, stepEvent rnd s = .next s := stepEvent_halted (by simp [halted])
  refine ⟨stuck, fun e t ht noReset => ?_, fun font => ⟨_, rfl, rfl⟩⟩
  cases e with
  | reset font => exact absurd rfl (noReset font)
  | load image =>
    rcases loadEvent_cases image s with ⟨-, refused⟩ | ⟨-, m, r, -, accepted⟩
    · cases refused.symm.trans ht
    · cases accepted.symm.trans ht; rfl
  | step rnd => cases (stuck (some rnd)).symm.trans ht; rfl
  | tick | setKey | ackFrame => cases ht; rfl

/-! ### The invariant -/

/-- Settles O57: every piece of the reset state is written out. -/
theorem resetMeetsTheInvariant : Obligations.ResetMeetsTheInvariant :=
  ⟨Memory.wf_nil, rfl, rfl, fun halted => absurd rfl halted, fun _ _ _ halted => by cases halted⟩

/-- The fault a state is about to take is read from its registers, PC, stack pointer and memory. -/
theorem State.faultOfStep_congr {s t : State} (hv : t.v = s.v) (hpc : t.pc = s.pc) (hsp : t.sp = s.sp)
    (hmem : t.mem = s.mem) : t.faultOfStep = s.faultOfStep := by
  have reg : ∀ r, t.readV r = s.readV r := fun r => by simp only [State.readV, hv]
  have instr : ∀ i, faultOfInstr i t = faultOfInstr i s := fun i => by
    cases i <;> simp only [faultOfInstr, reg, hsp]
  simp only [State.faultOfStep, State.fetchWord, hpc, hmem, instr]

/-- An event that keeps registers, PC, stack, memory, latch and marks keeps the invariant. -/
theorem State.Inv.of_same {s t : State} (inv : s.Inv) (hv : t.v = s.v) (hpc : t.pc = s.pc) (hsp : t.sp = s.sp)
    (hstack : t.stack = s.stack) (hmem : t.mem = s.mem) (hhalt : t.halt = s.halt)
    (hstepped : t.env.stepped = s.env.stepped) (harg : t.env.rndArg = s.env.rndArg) : t.Inv where
  memWf := hmem ▸ inv.memWf
  slotZero := by simp only [hstack, inv.slotZero]
  noArg := harg.trans inv.noArg
  haltedStepped h := hstepped.trans (inv.haltedStepped (hhalt ▸ h))
  record c p w h := by
    obtain ⟨hp, hw, hc⟩ := inv.record c p w (hhalt ▸ h)
    exact ⟨hp.trans hpc.symm, by simp only [hw, State.fetchWord, hpc, hmem],
      (State.faultOfStep_congr hv hpc hsp hmem).trans hc⟩

/-- On a running state the invariant is about memory, stack entry 0 and the host's byte. -/
theorem State.Inv.of_running {t : State} (running : t.halt = .running) (memWf : t.mem.wf)
    (slotZero : t.stack[0] = 0) (noArg : t.env.rndArg = none) : t.Inv where
  memWf := memWf
  slotZero := slotZero
  noArg := noArg
  haltedStepped halted := absurd running halted
  record _ _ _ halted := by cases running.symm.trans halted

/-- The record of a fault is true of the state it froze. -/
theorem State.Inv.faulted {s : State} (inv : s.Inv) {c : FaultCause} (hc : s.faultOfStep = some c) :
    (s.faulted c).Inv where
  memWf := inv.memWf
  slotZero := inv.slotZero
  noArg := rfl
  haltedStepped _ := rfl
  record _ _ _ h := by
    cases h
    exact ⟨rfl, rfl, (State.faultOfStep_congr rfl rfl rfl rfl).trans hc⟩

theorem stepEvent_keeps_inv {s t : State} {r : Option Byte} (inv : s.Inv) (h : stepEvent r s = .next t) :
    t.Inv := by
  by_cases running : s.halt = .running
  · cases hc : s.faultOfStep with
    | none =>
      obtain ⟨i, u, -, -, ran, hu⟩ := stepEvent_run running hc r
      cases hu.symm.trans h
      exact .of_running (ran.halt.trans running) (ran.mem_wf inv.memWf) (ran.slotZero.trans inv.slotZero) rfl
    | some c =>
      cases (stepEvent_fault running hc r).symm.trans h
      exact inv.faulted hc
  · cases (stepEvent_halted running r).symm.trans h
    exact inv

theorem loadEvent_keeps_inv {s t : State} {image : List Byte} (inv : s.Inv)
    (h : loadEvent image s = .next t) : t.Inv := by
  rcases loadEvent_cases image s with ⟨-, refused⟩ | ⟨first, m, r, hm, accepted⟩
  · cases refused.symm.trans h
  · cases accepted.symm.trans h
    have running : s.halt = .running := by
      by_contra halted
      exact absurd (inv.haltedStepped halted) (by simp [first])
    have memWf : m.wf := by
      rcases hm with rfl | rfl
      · exact inv.memWf
      · exact Memory.store_wf inv.memWf _ _
    exact .of_running running memWf inv.slotZero inv.noArg

theorem applyEvent_keeps_inv {s t : State} {e : Event} (inv : s.Inv) (h : applyEvent e s = .next t) :
    t.Inv := by
  cases e with
  | reset font => cases h; exact .of_running rfl (resetEvent_mem_wf font s) rfl rfl
  | load image => exact loadEvent_keeps_inv inv h
  | step rnd => exact stepEvent_keeps_inv inv h
  | tick | setKey | ackFrame => cases h; exact inv.of_same rfl rfl rfl rfl rfl rfl rfl rfl

/-- Settles O58, event by event: a step takes the event off the agenda, which the invariant does not read. -/
theorem everyStepKeepsTheInvariant : Obligations.EveryStepKeepsTheInvariant := by
  intro s t inv h
  cases agenda : s.env.agenda with
  | nil => exact stepEvent_keeps_inv inv (step_free agenda ▸ h)
  | cons e rest =>
    have taken : State.Inv { s with env := { s.env with agenda := rest } } :=
      inv.of_same rfl rfl rfl rfl rfl rfl rfl rfl
    exact applyEvent_keeps_inv taken (step_agenda agenda ▸ h)

end Sys2Proof.Machine

/-! The remaining instructions: call, the random byte, the decimal law, self-modifying code, the keypad and the timers
(spec/40_flow.md R82, R83; spec/41_alu.md R114; spec/42_index_memory.md R126; spec/20_memory.md section 6;
spec/44_keypad_timers.md R150 to R157). -/

namespace Sys2Proof.Machine

/-! ### Call and return -/

/-- Settles O16, by the two cases of `State.push`: room on the stack, or none. -/
theorem callPushesTheReturnAddress : Obligations.CallPushesTheReturnAddress := by
  refine fun nnn s => ⟨isWordOf_of_encode rfl (encNnn_eq_or (by decide) nnn), fun room => ?_, fun full => ?_⟩
  · refine ⟨_, execCallNnn_room room nnn, zextNnn_toNat nnn, sp_add_one_val room, ?_, fun k other => ?_, ?_⟩
    · simp
    · have apart : (s.sp + 1 : Fin 16).val ≠ k.val := fun e => other (Fin.ext e.symm)
      exact Vector.getElem_set_ne (Fin.isLt _) k.isLt apart
    · exact State.keepsAllBut_of_eq fun p hp => by cases p <;> simp_all
  · exact ⟨_, execCallNnn_full full nnn, rfl, s.keepsAllBut_latchFault _ _⟩

/-- What a call with room on the stack leaves, with the host's side `env`. -/
def State.called (s : State) (target : Word) (env : Env) : State :=
  { s with pc := target, sp := s.sp + 1, stack := s.stack.set (s.sp + 1 : Fin 16) (s.pc + 2), env := env }

/-- What a return with an address held leaves, with the host's side `env`. -/
def State.returned (s : State) (env : Env) : State :=
  { s with pc := s.stack[s.sp], sp := s.sp - 1, env := env }

/-- A step that executes a call with room on the stack. -/
theorem step_call {s : State} (running : s.halt = .running) (only : OnlySteps (s.env.agenda.take 1))
    {nnn : Imm12} (hd : decode s.fetchWord = .ok (.callNnn nnn)) (room : s.sp ≠ 15) :
    ∃ env : Env, env.agenda = s.env.agenda.tail ∧ step s = .next (s.called (zextNnn nnn) env) := by
  obtain ⟨env, hagenda, hstep⟩ := step_of_onlySteps running only hd
  have hexec := execCallNnn_room (s := { s with env := env }) room nnn
  exact ⟨{ env with rndArg := none }, hagenda, hstep.trans (congrArg endResult hexec)⟩

/-- A step that executes a return with an address held. -/
theorem step_ret {s : State} (running : s.halt = .running) (only : OnlySteps (s.env.agenda.take 1))
    (hd : decode s.fetchWord = .ok .ret) (held : s.sp ≠ 0) :
    ∃ env : Env, env.agenda = s.env.agenda.tail ∧ step s = .next (s.returned env) := by
  obtain ⟨env, hagenda, hstep⟩ := step_of_onlySteps running only hd
  have hexec := execRet_held (s := { s with env := env }) held
  exact ⟨{ env with rndArg := none }, hagenda, hstep.trans (congrArg endResult hexec)⟩

theorem State.called_sp_ne_zero {s : State} (room : s.sp ≠ 15) (target : Word) (env : Env) :
    (s.called target env).sp ≠ 0 := by
  intro e
  have depth : (s.called target env).sp.val = s.sp.val + 1 := sp_add_one_val room
  simp [e] at depth

/-- The word at the target of a call whose two bytes there are `hi` and `lo`. -/
theorem State.called_fetchWord {s : State} {nnn : Imm12} {hi lo : Byte} (env : Env)
    (hhi : s.mem.read nnn.toNat = hi) (hlo : s.mem.read ((nnn.toNat + 1) % 4096) = lo) :
    (s.called (zextNnn nnn) env).fetchWord = wordOfBytes hi lo := by
  have masked : maskAddr nnn.toNat = nnn.toNat := maskAddr_of_lt nnn.isLt
  rw [State.fetchWord, show (s.called (zextNnn nnn) env).pc.toNat = nnn.toNat from zextNnn_toNat nnn, masked,
    ← hhi, ← hlo]
  rfl

/-- What a call and the return after it leave: the address after the call in PC, and the stack pointer as before. -/
theorem State.returned_called (s : State) (target : Word) (env env' : Env) :
    (s.called target env).returned env' =
      { s with pc := s.pc + 2, stack := (s.called target env).stack, env := env' } := by
  simp [State.called, State.returned]

theorem OnlySteps.mono {l l' : List Event} (h : OnlySteps l) (sub : l' ⊆ l) : OnlySteps l' :=
  fun e he => h e (sub he)

/-- Where the next two events are STEPs, so is the one after the first. -/
theorem OnlySteps.take_one_tail {l : List Event} (h : OnlySteps (l.take 2)) : OnlySteps (l.tail.take 1) := by
  cases l with
  | nil => exact h
  | cons e rest => exact h.mono (List.subset_cons_self e _)

/-- Settles O17: the call leaves its return address on top of the stack, where the return finds it. -/
theorem callThenReturnComesBack : Obligations.CallThenReturnComesBack := by
  intro s nnn running only room hd hi lo
  have onlyNow : OnlySteps (s.env.agenda.take 1) := only.mono (List.take_subset_take_left _ (by decide))
  obtain ⟨env, hagenda, hcall⟩ := step_call running onlyNow hd room
  have onlyNext : OnlySteps (env.agenda.take 1) := hagenda ▸ only.take_one_tail
  have ret_next : decode (s.called (zextNnn nnn) env).fetchWord = .ok .ret :=
    State.called_fetchWord env hi lo ▸ rfl
  obtain ⟨env', hagenda', hret⟩ :=
    step_ret (s := s.called (zextNnn nnn) env) running onlyNext ret_next (State.called_sp_ne_zero room _ _)
  rw [State.returned_called] at hret
  refine ⟨_, _, hcall, hret, zextNnn_toNat nnn, rfl, rfl, fun k other => ?_, ?_, ?_⟩
  · have apart : (s.sp + 1 : Fin 16).val ≠ k.val := sp_add_one_val room ▸ other.symm
    exact Vector.getElem_set_ne (Fin.isLt _) k.isLt apart
  · exact State.keepsAllBut_of_eq fun p hp => by cases p <;> simp_all
  · calc env'.agenda = s.env.agenda.tail.tail := hagenda'.trans (congrArg List.tail hagenda)
      _ = s.env.agenda.drop 2 := by rw [← List.drop_one, ← List.drop_one, List.drop_drop]

/-! ### The random byte -/

/-- With no byte named, a fresh one is drawn and counted (log 1). -/
theorem State.drawRnd_free {s : State} (h : s.env.rndArg = none) :
    s.drawRnd =
      (Config.rndByte s.env.rndCount, { s with env := { s.env with rndCount := s.env.rndCount + 1 } }) := by
  rw [State.drawRnd, h]

/-- Settles O29: the byte is the one the host named, or a fresh one. -/
theorem randomMasksTheHostsByte : Obligations.RandomMasksTheHostsByte := by
  refine fun x kk s => ⟨isWordOf_of_encode rfl (encXkk_eq_or (by decide) x kk), fun r named => ?_, fun free => ?_⟩
  · have hexec : exec (.rndVxKk x kk) s = .next (s.advance.writeV x (r &&& kk)) := by
      rw [exec, execRndVxKk, State.drawRnd_named named]
    exact ⟨_, hexec, s.wroteReg_advance_writeV x _⟩
  · have hexec : exec (.rndVxKk x kk) s = .next
        (State.writeV { s.advance with env := { s.env with rndCount := s.env.rndCount + 1 } } x
          (Config.rndByte s.env.rndCount &&& kk)) := by
      rw [exec, execRndVxKk, State.drawRnd_free free]
      rfl
    refine ⟨_, hexec, State.readV_writeV_self _ x _,
      fun r other => State.readV_writeV_ne _ (by simpa using other) _, rfl, ?_, rfl⟩
    exact State.keepsAllBut_of_eq fun p hp => by cases p <;> simp_all

/-! ### The decimal digits -/

/-- Settles O32: division with remainder, twice. -/
theorem decimalDigitsAreUnique : Obligations.DecimalDigitsAreUnique := by
  intro b h t o
  have := b.isLt
  simp only [bcdDigits, List.cons.injEq, and_true, ← BitVec.toNat_inj, BitVec.toNat_ofNat]
  omega

/-! ### Self-modifying code -/

/-- Settles O36, from what Fx55 stores (R128): I and PC name the same two addresses. -/
theorem storeIsSeenByTheNextFetch : Obligations.StoreIsSeenByTheNextFetch := by
  intro x s hm hx same
  obtain ⟨-, hstore⟩ := storeRegistersAtI x s
  obtain ⟨t, hexec, stored, -, -, -, fetched⟩ := hstore hm
  refine ⟨t, hexec, ?_⟩
  have addr0 : (s.pc + 2).toNat % 4096 = s.effAddr (0 : Reg).val := same.symm
  have addr1 : ((s.pc + 2).toNat + 1) % 4096 = s.effAddr (1 : Reg).val := by
    change _ = (s.i.toNat + 1) % 4096
    omega
  rw [fetched, addr0, addr1, stored 0 (Fin.zero_le _), stored 1 hx]

/-! ### Keys -/

/-- Settles O42, by the two cases of `State.keyNamed`: a key named, or none. -/
theorem keySkipsTestOneKey : Obligations.KeySkipsTestOneKey := by
  refine fun x s => ⟨isWordOf_of_encode rfl (encX_eq_or (by decide) (by decide) x),
    isWordOf_of_encode rfl (encX_eq_or (by decide) (by decide) x), fun k named => ?_, fun outside => ?_⟩
  · have inside : (s.readV x).toNat < 16 := named ▸ k.isLt
    obtain rfl : k = ⟨(s.readV x).toNat, inside⟩ := Fin.ext named
    exact ⟨skips_of_skipIf (execSkpVx_inside inside) Iff.rfl,
      skips_of_skipIf (execSknpVx_inside inside) (by simp)⟩
  · exact ⟨⟨_, execSkpVx_outside outside, rfl, s.keepsAllBut_latchFault _ _⟩,
      ⟨_, execSknpVx_outside outside, rfl, s.keepsAllBut_latchFault _ _⟩⟩

/-- Settles O43, by the two cases of `firstPressed`. -/
theorem waitForKeyStallsOrLoadsTheLeast : Obligations.WaitForKeyStallsOrLoadsTheLeast := fun x s =>
  ⟨isWordOf_of_encode rfl (encX_eq_or (by decide) (by decide) x),
    fun none_pressed => execLdVxK_stall (firstPressed_none none_pressed) x,
    fun _ pressed least => ⟨_, execLdVxK_pressed (firstPressed_least pressed least) x,
      s.wroteReg_advance_writeV x _⟩⟩

/-! ### Timers -/

/-- Settles O44: each of the three is one write. -/
theorem timerMoves : Obligations.TimerMoves := fun x s =>
  ⟨⟨isWordOf_of_encode rfl (encX_eq_or (by decide) (by decide) x), _, rfl, s.wroteReg_advance_writeV x _⟩,
    ⟨isWordOf_of_encode rfl (encX_eq_or (by decide) (by decide) x), _, rfl, rfl, rfl,
      State.keepsAllBut_of_eq fun p hp => by cases p <;> simp_all⟩,
    isWordOf_of_encode rfl (encX_eq_or (by decide) (by decide) x), _, rfl, rfl, State.sound_iff _, rfl,
      State.keepsAllBut_of_eq fun p hp => by cases p <;> simp_all⟩

/-! ### The keys and the dirty flag, written by the host -/

theorem keepsAllBut_setKeyEvent (s : State) (k : Fin 16) (b : Bool) : s.KeepsAllBut (setKeyEvent k b s) [.key] :=
  State.keepsAllBut_of_eq fun p hp => by cases p <;> simp_all [setKeyEvent]

theorem keepsAllBut_ackFrameEvent (s : State) : s.KeepsAllBut (ackFrameEvent s) [.dirty] :=
  State.keepsAllBut_of_eq fun p hp => by cases p <;> simp_all [ackFrameEvent]

/-- Settles O46: SET_KEY is one write of one key, ACK_FRAME one write of the dirty flag. -/
theorem keyAndFrameEvents : Obligations.KeyAndFrameEvents := by
  refine ⟨fun k b s => ⟨_, rfl, ?_, fun j other => ?_, keepsAllBut_setKeyEvent s k b⟩,
    fun s => ⟨_, rfl, rfl, keepsAllBut_ackFrameEvent s⟩⟩
  · exact Vector.getElem_set_self _
  · have apart : k.val ≠ j.val := fun e => other (Fin.ext e.symm)
    exact Vector.getElem_set_ne k.isLt j.isLt apart

end Sys2Proof.Machine

/-! Drawing (spec/43_display.md R141, R142 and the laws (a) and (b) of its section on Dxyn). -/

namespace Sys2Proof.Machine

/-! ### Dxyn as an XOR of its sprite -/

theorem State.keepsAllBut_drawn (s : State) (fb : Frame) (hit : Bool) :
    s.KeepsAllBut (State.writeCollision { s.advance with fb := fb, dirty := true } hit) [.v, .fb, .dirty, .pc] :=
  State.keepsAllBut_of_eq fun p hp => by cases p <;> simp_all

theorem eq_wrapRow_iff {row : Fin 32} {vy : Byte} {r : Nat} : row = wrapRow vy r ↔ row.val = (vy.toNat + r) % 32 :=
  Fin.ext_iff

theorem eq_wrapCol_iff {col : Fin 64} {vx : Byte} {c : Nat} : col = wrapCol vx c ↔ col.val = (vx.toNat + c) % 64 :=
  Fin.ext_iff

/-- Settles O38, from what a draw does inside the sprite and outside it. -/
theorem drawXorsTheSprite : Obligations.DrawXorsTheSprite := by
  intro x y n s hn
  have wf : (Instr.drwVxVyN x y n).wellFormed = true := decide_eq_true hn
  refine ⟨isWordOf_of_encode wf (encXyn_eq_or_fieldAt (by decide) (by omega) x y), _, rfl,
    fun r hr c hc row col hrow hcol => ?_, fun row col outside => ?_, by simp, by simp, fun r other => ?_,
    s.keepsAllBut_drawn _ _⟩
  · obtain rfl := eq_wrapRow_iff.mpr hrow
    obtain rfl := eq_wrapCol_iff.mpr hcol
    rw [State.writeCollision_pixel]
    exact s.drawSprite_get (s.readV x) (s.readV y) (by omega) hr hc
  · rw [State.writeCollision_pixel]
    simp only [← eq_wrapRow_iff, ← eq_wrapCol_iff] at outside
    exact s.drawSprite_get_outside (s.readV x) (s.readV y) outside
  · have notVF : r ≠ Reg.vF := by simpa using other
    rw [State.readV_writeCollision, if_neg fun e => notVF e.2]
    rfl

/-! ### The ink of a sprite -/

/-- What the points of a draw XOR into one place: the pixel they leave there on a blank display. -/
def inkOf (ps : List Point) (row : Fin 32) (col : Fin 64) : Bool :=
  (Draw.points ⟨blankFrame, false⟩ ps).fb.get row col

/-- One point XORs its ink. -/
theorem Draw.pixel_get (d : Draw) (p : Point) (row : Fin 32) (col : Fin 64) :
    (d.pixel p.1 p.2.1 p.2.2).fb.get row col =
      (d.fb.get row col ^^ (decide (row = p.1 ∧ col = p.2.1) && p.2.2)) := by
  rw [Draw.pixel, Frame.get_flip]
  split
  · next same => obtain ⟨rfl, rfl⟩ := same; simp
  · next apart => simp [apart]

/-- A draw XORs its ink into the display, whatever was on it. -/
theorem Draw.points_get (ps : List Point) (d : Draw) (row : Fin 32) (col : Fin 64) :
    (d.points ps).fb.get row col = (d.fb.get row col ^^ inkOf ps row col) := by
  induction ps generalizing d with
  | nil => simp [inkOf, Draw.points]
  | cons p ps ih =>
    rw [inkOf, Draw.points_cons, Draw.points_cons, ih, ih, Draw.pixel_get, Draw.pixel_get,
      Frame.get_blankFrame, Bool.false_xor, Bool.xor_assoc]

theorem State.drawSprite_get_ink (s : State) (vx vy : Byte) (n : Nat) (row : Fin 32) (col : Fin 64) :
    (s.drawSprite vx vy n).fb.get row col =
      (s.fb.get row col ^^ inkOf (s.spritePoints vx vy n) row col) := by
  rw [State.drawSprite_eq_points, Draw.points_get]

/-- The points of a sprite are read from memory and I alone. -/
theorem State.spritePoints_congr {s t : State} (hmem : t.mem = s.mem) (hi : t.i = s.i) (vx vy : Byte) (n : Nat) :
    t.spritePoints vx vy n = s.spritePoints vx vy n := by
  simp only [State.spritePoints, State.byteAtI, State.effAddr, hmem, hi]

/-- Settles O41: either order XORs the same two inks into each place. -/
theorem drawsCommuteOnTheDisplay : Obligations.DrawsCommuteOnTheDisplay := by
  intro s i1 i2 vx1 vy1 vx2 vy2 n1 n2 _ _
  refine Frame.ext_get fun row col => ?_
  simp only [State.drawSprite_get_ink]
  exact Bool.xor_right_comm _ _ _

/-- The second of two draws of one sprite at one place takes its ink off again. -/
theorem State.drawSprite_twice {s t : State} {vx vy : Byte} {n : Nat} (hmem : t.mem = s.mem) (hi : t.i = s.i)
    (hfb : t.fb = (s.drawSprite vx vy n).fb) (row : Fin 32) (col : Fin 64) :
    (t.drawSprite vx vy n).fb.get row col = s.pixel row col := by
  rw [State.drawSprite_get_ink, State.spritePoints_congr hmem hi, hfb, State.drawSprite_get_ink,
    Bool.xor_assoc, Bool.xor_self, Bool.xor_false]
  rfl

/-- Settles O40: the second draw restores the display, so it turns off what the first turned on, which is a hit
(R142). -/
theorem drawingTwiceRestoresTheDisplay : Obligations.DrawingTwiceRestoresTheDisplay := by
  intro x y n s hn
  refine ⟨_, rfl, ?_⟩
  generalize ht : State.writeCollision
    { s.advance with fb := (s.drawSprite (s.readV x) (s.readV y) n).fb, dirty := true }
    (s.drawSprite (s.readV x) (s.readV y) n).hit = t
  intro same_x same_y
  obtain ⟨u, hexec, hit, -⟩ := collisionFlagAccumulates x y n t hn
  have restored : ∀ row col, u.pixel row col = s.pixel row col := by
    intro row col
    cases hexec
    rw [State.writeCollision_pixel, same_x, same_y]
    exact State.drawSprite_twice (by simp [← ht]) (by simp [← ht]) (by simp [← ht]) row col
  exact ⟨u, hexec, restored, fun ⟨row, col, off, on⟩ => hit ⟨row, col, on, (restored row col).trans off⟩⟩

end Sys2Proof.Machine

/-! RESET and LOAD (spec/70_reset_and_hazards.md R200, R203, R204). -/

namespace Sys2Proof.Machine

/-! ### RESET -/

/-- Past the font nothing is set at reset. -/
theorem resetByte_of_ge {a : Nat} (h : 80 ≤ a) : resetByte a = 0 :=
  List.getD_eq_default _ _ h

/-- After RESET the font lies at the bottom of memory. -/
theorem resetEvent_read_font (font : Vector Byte 80) (s : State) (a : Fin 80) :
    (resetEvent font s).mem.read a.val = font[a] := by
  have addr : maskAddr (0 + a.val) = a.val := by
    rw [Nat.zero_add]
    exact maskAddr_of_lt (lt_trans a.isLt (by decide))
  have byte := Memory.read_store_self Memory.wf_nil (base := 0) (k := a.val) (bs := font.toList)
    (by simp [Config.memSize]) (by simp)
  rw [addr] at byte
  simpa using byte

/-- After RESET every byte past the font is 0. -/
theorem resetEvent_read_past_font (font : Vector Byte 80) (s : State) {a : Nat} (h : 80 ≤ a) :
    (resetEvent font s).mem.read a = 0 := by
  rw [resetEvent_mem, Memory.read_store_of_ne, Memory.read_nil, resetByte_of_ge h]
  intro k hk
  rw [Vector.length_toList] at hk
  simp only [maskAddr, Config.memSize]
  omega

/-- Settles O48: RESET builds on the reset state and keeps the agenda only; the font is one store into memory. -/
theorem resetForgetsThePast : Obligations.ResetForgetsThePast := fun font s =>
  ⟨_, rfl, fun r => Vector.getElem_replicate r.isLt, rfl, rfl, rfl, fun k => Vector.getElem_replicate k.isLt,
    rfl, rfl, resetEvent_read_font font s, fun _ => resetEvent_read_past_font font s, resetEvent_mem_wf font s,
    Frame.get_blankFrame, rfl, fun k => Vector.getElem_replicate k.isLt, rfl, rfl⟩

/-- The default font is what the store reads unlisted, so it lists nothing (log 6). -/
theorem resetEvent_defaultFont_mem (s : State) : (resetEvent defaultFont s).mem = [] := by
  refine Memory.ext_of_wf (resetEvent_mem_wf _ _) Memory.wf_nil fun a => ?_
  rcases Nat.lt_or_ge a 80 with font | past
  · rw [resetEvent_read_font defaultFont s ⟨a, font⟩]
    simp [defaultFont]
  · rw [resetEvent_read_past_font _ _ past, Memory.read_nil, resetByte_of_ge past]

/-- Settles O49: with memory known, every other piece is written out. -/
theorem resetStateIsResetWithTheDefaultFont : Obligations.ResetStateIsResetWithTheDefaultFont := by
  have mem := resetEvent_defaultFont_mem State.reset
  refine ⟨?_, by decide, by decide, by decide, by decide, by decide⟩
  rw [resetEvent_mem] at mem
  rw [resetEvent, mem]
  rfl

/-! ### LOAD -/

/-- The bytes of an image of at most 3584 bytes lie below 4096, where no address wraps (70_reset_and_hazards.md
R203). -/
theorem maskAddr_loaded {image : List Byte} (short : image.length ≤ 3584) {k : Nat} (hk : k < image.length) :
    maskAddr (Config.resetPc.toNat + k) = 0x200 + k :=
  maskAddr_of_lt (show 0x200 + k < 4096 by omega)

/-- Settles O50: an accepted LOAD is one store from 0x200 up. -/
theorem loadCopiesTheImage : Obligations.LoadCopiesTheImage := by
  refine fun image s => ⟨fun first unloaded short wf => ?_, fun late => loadEvent_late late image⟩
  refine ⟨_, loadEvent_accepted first unloaded short, fun k hk => ?_, fun a outside => ?_, rfl, ?_⟩
  · rw [← maskAddr_loaded short hk]
    exact Memory.read_store_self wf (le_trans short (by decide)) hk
  · exact Memory.read_store_of_ne fun k hk => (maskAddr_loaded short hk).symm ▸ outside k hk
  · exact State.keepsAllBut_of_eq fun p hp => by cases p <;> simp_all

end Sys2Proof.Machine

/-! What every instruction keeps: each has its own pieces of the block to write, and its own registers; PC after a STEP;
the parked machine (spec/10_state.md R12, R17, R19 to R26; spec/60_exceptions.md R185; spec/70_reset_and_hazards.md
R210). -/

namespace Sys2Proof.Machine

/-! ### The pieces an instruction writes -/

/-- The pieces of the block an instruction that raises no fault may write (10_state.md R12, R17 to R26; 20_memory.md R45),
and the model's count of free bytes (log 1). -/
def partsWritten : Instr → List Part
  | .cls => [.pc, .fb, .dirty]
  | .ret => [.pc, .sp]
  | .callNnn _ => [.pc, .sp, .stack]
  | .jpNnn _ | .jpV0Nnn _ | .seVxKk _ _ | .sneVxKk _ _ | .seVxVy _ _ | .sneVxVy _ _ | .skpVx _ | .sknpVx _ => [.pc]
  | .ldVxKk _ _ | .addVxKk _ _ | .ldVxVy _ _ | .orVxVy _ _ | .andVxVy _ _ | .xorVxVy _ _ | .addVxVy _ _
  | .subVxVy _ _ | .shrVx _ _ | .subnVxVy _ _ | .shlVx _ _ | .ldVxDt _ | .ldVxK _ | .ldVxMem _ => [.v, .pc]
  | .rndVxKk _ _ => [.v, .pc, .env]
  | .drwVxVyN _ _ _ => [.v, .fb, .dirty, .pc]
  | .ldINnn _ | .addIVx _ | .ldFVx _ => [.i, .pc]
  | .ldDtVx _ => [.dt, .pc]
  | .ldStVx _ => [.st, .pc]
  | .ldBVx _ | .ldMemVx _ => [.mem, .pc]

theorem State.KeepsAllBut.mono {s t : State} {ps qs : List Part} (h : s.KeepsAllBut t ps) (sub : ps ⊆ qs) :
    s.KeepsAllBut t qs := fun p hp => h p fun hp' => hp (sub hp')

theorem State.keepsAllBut_refl (s : State) (ps : List Part) : s.KeepsAllBut s ps :=
  State.keepsAllBut_of_eq fun p _ => by cases p <;> rfl

theorem State.keepsAllBut_advance_writeV (s : State) (x : Reg) (b : Byte) :
    s.KeepsAllBut (s.advance.writeV x b) [.v, .pc] :=
  State.keepsAllBut_of_eq fun p hp => by cases p <;> simp_all

theorem State.keepsAllBut_advance_writeWithFlag (s : State) (x : Reg) (b : Byte) (f : Bool) :
    s.KeepsAllBut (s.advance.writeWithFlag x b f) [.v, .pc] :=
  State.keepsAllBut_of_eq fun p hp => by cases p <;> simp_all

/-! ### The instructions that can fault, when they do not -/

theorem held_of_no_fault {s : State} (hc : faultOfInstr .ret s = none) : s.sp ≠ 0 := by
  simpa [faultOfInstr] using hc

theorem room_of_no_fault {s : State} {nnn : Imm12} (hc : faultOfInstr (.callNnn nnn) s = none) : s.sp ≠ 15 := by
  simpa [faultOfInstr] using hc

theorem inside_of_no_fault_skp {s : State} {x : Reg} (hc : faultOfInstr (.skpVx x) s = none) :
    (s.readV x).toNat < 16 := by
  simpa [faultOfInstr, Nat.lt_succ_iff] using hc

theorem inside_of_no_fault_sknp {s : State} {x : Reg} (hc : faultOfInstr (.sknpVx x) s = none) :
    (s.readV x).toNat < 16 := by
  simpa [faultOfInstr, Nat.lt_succ_iff] using hc

/-- An instruction that raises no fault writes its own pieces only. -/
theorem exec_keeps_of_no_fault {i : Instr} {s t : State} (hc : faultOfInstr i s = none)
    (h : exec i s = .next t) : s.KeepsAllBut t (partsWritten i) := by
  cases i
  case ret =>
    cases (execRet_held (held_of_no_fault hc)).symm.trans h
    exact State.keepsAllBut_of_eq fun p hp => by cases p <;> simp_all [partsWritten]
  case callNnn nnn =>
    cases (execCallNnn_room (room_of_no_fault hc) nnn).symm.trans h
    exact State.keepsAllBut_of_eq fun p hp => by cases p <;> simp_all [partsWritten]
  case skpVx x =>
    cases (execSkpVx_inside (inside_of_no_fault_skp hc)).symm.trans h
    exact s.keepsAllBut_skipIf _
  case sknpVx x =>
    cases (execSknpVx_inside (inside_of_no_fault_sknp hc)).symm.trans h
    exact s.keepsAllBut_skipIf _
  case ldVxK x =>
    cases hk : firstPressed s.key with
    | none => cases (execLdVxK_stall hk x).symm.trans h; exact s.keepsAllBut_refl _
    | some k => cases (execLdVxK_pressed hk x).symm.trans h; exact s.keepsAllBut_advance_writeV _ _
  case rndVxKk x kk =>
    cases h
    rw [State.drawRnd_snd_eq]
    exact State.keepsAllBut_of_eq fun p hp => by cases p <;> simp_all [partsWritten]
  case cls => cases h; exact State.keepsAllBut_of_eq fun p hp => by cases p <;> simp_all [partsWritten]
  case drwVxVyN x y n => cases h; exact s.keepsAllBut_drawn _ _
  case jpNnn | jpV0Nnn => cases h; exact s.keepsAllBut_setPc _
  case seVxKk | sneVxKk | seVxVy | sneVxVy => cases h; exact s.keepsAllBut_skipIf _
  case addVxVy | subVxVy | shrVx | subnVxVy | shlVx => cases h; exact s.keepsAllBut_advance_writeWithFlag _ _ _
  case ldINnn | addIVx | ldFVx => cases h; exact s.keepsAllBut_advance_setI _
  case ldDtVx | ldStVx =>
    cases h; exact State.keepsAllBut_of_eq fun p hp => by cases p <;> simp_all [partsWritten]
  case ldBVx | ldMemVx => cases h; exact s.keepsAllBut_advance_storeAtI _
  case ldVxMem => cases h; exact s.keepsAllBut_advance_loadFromI _
  all_goals cases h; exact s.keepsAllBut_advance_writeV _ _

/-- An instruction writes its own pieces only, and the latch when it raises a fault. -/
theorem exec_keeps {i : Instr} {s t : State} (h : exec i s = .next t) :
    s.KeepsAllBut t (.halt :: partsWritten i) := by
  cases hc : faultOfInstr i s with
  | none => exact (exec_keeps_of_no_fault hc h).mono (List.subset_cons_self _ _)
  | some c =>
    cases (exec_of_fault hc).symm.trans h
    exact (s.keepsAllBut_latchFault _ _).mono (by simp)

/-- Settles O54: each piece is looked up in the table of what an instruction writes. -/
theorem eachPieceHasItsOwnWriters : Obligations.EachPieceHasItsOwnWriters := by
  intro i s t h
  have keeps : ∀ p, p ≠ .halt → p ∉ partsWritten i → s.Keeps t p := fun p latch own =>
    exec_keeps h p (by simp [latch, own])
  refine ⟨fun h1 h2 h3 => keeps .i (by decide) ?_, fun h1 h2 => keeps .mem (by decide) ?_,
    fun h1 => keeps .stack (by decide) ?_, fun h1 h2 => keeps .sp (by decide) ?_,
    fun h1 => keeps .dt (by decide) ?_, fun h1 => keeps .st (by decide) ?_,
    fun h1 h2 => ⟨keeps .fb (by decide) ?_, keeps .dirty (by decide) ?_⟩, keeps .key (by decide) ?_⟩
  · cases i with
    | ldINnn a => exact absurd rfl (h1 a)
    | addIVx x => exact absurd rfl (h2 x)
    | ldFVx x => exact absurd rfl (h3 x)
    | _ => simp [partsWritten]
  · cases i with
    | ldBVx x => exact absurd rfl (h1 x)
    | ldMemVx x => exact absurd rfl (h2 x)
    | _ => simp [partsWritten]
  · cases i with
    | callNnn a => exact absurd rfl (h1 a)
    | _ => simp [partsWritten]
  · cases i with
    | callNnn a => exact absurd rfl (h1 a)
    | ret => exact absurd rfl h2
    | _ => simp [partsWritten]
  · cases i with
    | ldDtVx x => exact absurd rfl (h1 x)
    | _ => simp [partsWritten]
  · cases i with
    | ldStVx x => exact absurd rfl (h1 x)
    | _ => simp [partsWritten]
  · cases i with
    | cls => exact absurd rfl h1
    | drwVxVyN x y n => exact absurd rfl (h2 x y n)
    | _ => simp [partsWritten]
  · cases i with
    | cls => exact absurd rfl h1
    | drwVxVyN x y n => exact absurd rfl (h2 x y n)
    | _ => simp [partsWritten]
  · cases i <;> simp [partsWritten]

/-! ### The registers an instruction writes -/

theorem State.keepsRegsBut_advance_writeV (s : State) (x : Reg) (b : Byte) :
    s.KeepsRegsBut (s.advance.writeV x b) [x] :=
  fun _ other => State.readV_writeV_ne _ (by simpa using other) _

theorem State.keepsRegsBut_advance_writeWithFlag (s : State) (x : Reg) (b : Byte) (f : Bool) :
    s.KeepsRegsBut (s.advance.writeWithFlag x b f) [x, Reg.vF] := by
  intro r other
  obtain ⟨notX, notVF⟩ : r ≠ x ∧ r ≠ Reg.vF := by simpa using other
  rw [State.readV_writeWithFlag, if_neg notVF, if_neg notX]
  rfl

/-- Settles O53: an instruction that does not write V keeps every register, and each of the others writes registers by
one of four shared operations. -/
theorem registersOutsideTheTableAreKept : Obligations.RegistersOutsideTheTableAreKept := by
  intro i s t h r other
  by_cases own : Part.v ∈ partsWritten i
  · cases i
    case ldVxKk | addVxKk | ldVxVy | orVxVy | andVxVy | xorVxVy | ldVxDt =>
      cases h; exact s.keepsRegsBut_advance_writeV _ _ r other
    case rndVxKk x kk =>
      cases h
      rw [State.drawRnd_snd_eq]
      exact State.keepsRegsBut_advance_writeV { s with env := s.drawRnd.2.env } _ _ r other
    case ldVxK x =>
      cases hk : firstPressed s.key with
      | none => cases (execLdVxK_stall hk x).symm.trans h; rfl
      | some k => cases (execLdVxK_pressed hk x).symm.trans h; exact s.keepsRegsBut_advance_writeV _ _ r other
    case addVxVy | subVxVy | shrVx | subnVxVy | shlVx =>
      cases h; exact s.keepsRegsBut_advance_writeWithFlag _ _ _ r other
    case drwVxVyN x y n =>
      cases h
      have notVF : r ≠ Reg.vF := by simpa [regsWritten] using other
      rw [State.readV_writeCollision, if_neg fun e => notVF e.2]
      rfl
    case ldVxMem x =>
      cases h
      have above : ¬ r ≤ x := by simpa [regsWritten] using other
      rw [State.readV_loadFromI _ x.isLt, if_neg fun lt => above (Nat.le_of_lt_succ lt)]
      rfl
    all_goals simp [partsWritten] at own
  · exact exec_keeps h .v (by simp [own]) r

/-! ### PC after a STEP -/

/-- A key in range is the one the table of R17 looks up. -/
theorem key_toList_getD (key : Vector Bool 16) {n : Nat} (h : n < 16) : key.toList.getD n false = key[n] := by
  simp [List.getD_eq_getElem?_getD, h]

theorem State.skipIf_pc (s : State) (c : Bool) : (s.skipIf c).pc = if c = true then s.pc + 4 else s.pc + 2 := by
  rw [State.skipIf_eq, State.setPc_pc]

/-- A byte and an immediate added as words, or as numbers. -/
theorem zextByte_add_zextNnn (b : Byte) (nnn : Imm12) :
    zextByte b + zextNnn nnn = BitVec.ofNat 16 (b.toNat + nnn.toNat) :=
  (BitVec.ofNat_add ..).symm

/-- No key is pressed when none is found. -/
theorem not_pressed_of_firstPressed_none {key : Vector Bool 16} (h : firstPressed key = none) (k : Fin 16) :
    key[k] = false := by
  rw [firstPressed, List.find?_eq_none] at h
  simpa using h k (List.mem_finRange k)

theorem pressed_of_firstPressed {key : Vector Bool 16} {k : Fin 16} (h : firstPressed key = some k) :
    key[k] = true :=
  List.find?_some (p := fun k : Fin 16 => key[k]) h

theorem State.faultOfStep_of_decode {s : State} {i : Instr} (hd : decode s.fetchWord = .ok i) :
    s.faultOfStep = faultOfInstr i s := by
  rw [State.faultOfStep, hd]

/-- An instruction that raises no fault leaves PC where the table of R17 says. -/
theorem exec_pc {i : Instr} {s t : State} (running : s.halt = .running) (hd : decode s.fetchWord = .ok i)
    (hc : faultOfInstr i s = none) (h : exec i s = .next t) : t.pc = s.pcAfterStep := by
  have hf : s.faultOfStep = none := (State.faultOfStep_of_decode hd).trans hc
  simp only [State.pcAfterStep, running, hf, hd]
  cases i
  case ret => cases (execRet_held (held_of_no_fault hc)).symm.trans h; rfl
  case callNnn nnn => cases (execCallNnn_room (room_of_no_fault hc) nnn).symm.trans h; rfl
  case jpNnn => cases h; rfl
  case jpV0Nnn nnn => cases h; exact zextByte_add_zextNnn _ nnn
  case seVxKk | sneVxKk | seVxVy | sneVxVy => cases h; simp [State.skipIf_pc]
  case skpVx x =>
    have inside := inside_of_no_fault_skp hc
    cases (execSkpVx_inside inside).symm.trans h
    simp only [State.skipIf_pc, key_toList_getD s.key inside]
  case sknpVx x =>
    have inside := inside_of_no_fault_sknp hc
    cases (execSknpVx_inside inside).symm.trans h
    simp only [State.skipIf_pc, key_toList_getD s.key inside, Bool.not_eq_true']
  case ldVxK x =>
    cases hk : firstPressed s.key with
    | none =>
      cases (execLdVxK_stall hk x).symm.trans h
      exact (if_pos (not_pressed_of_firstPressed_none hk)).symm
    | some k =>
      cases (execLdVxK_pressed hk x).symm.trans h
      exact (if_neg fun unpressed => absurd ((unpressed k).symm.trans (pressed_of_firstPressed hk)) (by decide)).symm
  case rndVxKk => cases h; simp only [State.writeV_pc, State.advance_pc]; rw [State.drawRnd_snd_eq]
  case drwVxVyN => cases h; simp
  case ldVxMem => cases h; simp
  all_goals cases h; rfl

/-- Settles O52: a halted engine and a fault keep PC, and an instruction that runs leaves it where the table says. -/
theorem pcAfterAStepFollowsTheTable : Obligations.PcAfterAStepFollowsTheTable := by
  intro s r
  cases latch : s.halt with
  | halted c p w =>
    exact ⟨s, stepEvent_halted (by simp [latch]) r, by simp only [State.pcAfterStep, latch]⟩
  | running =>
    cases hc : s.faultOfStep with
    | some c => exact ⟨_, stepEvent_fault latch hc r, by simp only [State.pcAfterStep, latch, hc]; rfl⟩
    | none =>
      obtain ⟨i, t, hd, hexec, -, hstep⟩ := stepEvent_run latch hc r
      have instr : faultOfInstr i (s.beginStep r) = none :=
        (faultOfInstr_beginStep i s r).trans ((State.faultOfStep_of_decode hd).symm.trans hc)
      exact ⟨_, hstep, exec_pc (s := s.beginStep r) (t := t) latch hd instr hexec⟩

/-! ### The delay timer -/

/-- A STEP that does not execute Fx15 keeps DT. -/
theorem stepEvent_keeps_dt {s t : State} {r : Option Byte} (h : stepEvent r s = .next t)
    (other : ∀ x, decode s.fetchWord ≠ .ok (.ldDtVx x)) : t.dt = s.dt := by
  by_cases running : s.halt = .running
  · cases hc : s.faultOfStep with
    | none =>
      obtain ⟨i, u, hd, hexec, -, hu⟩ := stepEvent_run running hc r
      cases hu.symm.trans h
      obtain ⟨-, -, -, -, keep, -⟩ := eachPieceHasItsOwnWriters i _ _ hexec
      exact keep fun x e => other x (e ▸ hd)
    | some c => cases (stepEvent_fault running hc r).symm.trans h; rfl
  · cases (stepEvent_halted running r).symm.trans h; rfl

/-- Settles O55, event by event: RESET and TICK lower DT or leave it at 0. -/
theorem delayTimerRisesOnlyWhenWritten : Obligations.DelayTimerRisesOnlyWhenWritten := by
  intro e s t h other
  cases e with
  | reset font => cases h; exact Nat.zero_le _
  | load image =>
    rcases loadEvent_cases image s with ⟨-, refused⟩ | ⟨-, m, r, -, accepted⟩
    · cases refused.symm.trans h
    · cases accepted.symm.trans h; exact le_rfl
  | step rnd => rw [stepEvent_keeps_dt h fun x => other rnd x rfl]
  | tick => cases h; exact (countDown_toNat s.dt).trans_le (Nat.sub_le _ _)
  | setKey | ackFrame => cases h; exact le_rfl

/-! ### The parked machine -/

theorem State.Parked.running {s : State} (h : s.Parked) : s.halt = .running := h.1

/-- The word of a parked machine is a jump to its own address. -/
theorem State.Parked.decode_fetchWord {s : State} (h : s.Parked) :
    ∃ nnn, decode s.fetchWord = .ok (.jpNnn nnn) ∧ zextNnn nnn = s.pc := by
  obtain ⟨-, low, word⟩ := h
  have same : (BitVec.ofNat 12 s.pc.toNat).toNat = s.pc.toNat := Nat.mod_eq_of_lt low
  have target : fieldAt s.pc.toNat 0 = s.pc := by simp [fieldAt]
  have encoded : encode (.jpNnn (BitVec.ofNat 12 s.pc.toNat)) = s.fetchWord := by
    rw [word, encode, encNnn_eq_or (by decide), same, target]
    rfl
  refine ⟨_, encoded ▸ decode_encode rfl, ?_⟩
  rw [zextNnn, same, BitVec.ofNat_toNat, BitVec.setWidth_eq]

/-- A jump to its own address changes nothing. -/
theorem exec_jump_to_self {s : State} {nnn : Imm12} (h : zextNnn nnn = s.pc) : exec (.jpNnn nnn) s = .next s := by
  rw [exec, execJpNnn, h]
  rfl

/-- A STEP of a parked machine changes the host's side only. -/
theorem State.Parked.stepEvent {s : State} (h : s.Parked) (r : Option Byte) :
    stepEvent r s = .next (s.beginStep r).endStep := by
  obtain ⟨nnn, hd, self⟩ := h.decode_fetchWord
  rw [stepEvent_decoded h.running hd, exec_jump_to_self (s := s.beginStep r) self]
  rfl

/-- With a STEP next, a step of a parked machine takes it off the agenda and changes the host's side only. -/
theorem State.Parked.step {s : State} (h : s.Parked) (only : OnlySteps (s.env.agenda.take 1)) :
    ∃ env : Env, env.agenda = s.env.agenda.tail ∧ step s = .next { s with env := env } := by
  obtain ⟨nnn, hd, self⟩ := h.decode_fetchWord
  obtain ⟨env, hagenda, hstep⟩ := step_of_onlySteps h.running only hd
  have hexec := exec_jump_to_self (s := { s with env := env }) self
  exact ⟨{ env with rndArg := none }, hagenda, hstep.trans (congrArg endResult hexec)⟩

/-- Any number of STEPs leaves a parked machine's block as it is. -/
theorem State.Parked.run {s : State} (h : s.Parked) (k : Nat) (only : OnlySteps (s.env.agenda.take k)) :
    ∃ env : Env, env.agenda = s.env.agenda.drop k ∧ Sys2Proof.core.run k s = .next { s with env := env } := by
  induction k generalizing s with
  | zero => exact ⟨s.env, rfl, rfl⟩
  | succ k ih =>
    obtain ⟨env, hagenda, hstep⟩ := h.step (only.mono (List.take_subset_take_left _ (by omega)))
    have onlyNext : OnlySteps (env.agenda.take k) := by
      refine only.mono ?_
      rw [hagenda]
      cases s.env.agenda <;> simp
    obtain ⟨env', hagenda', hrun⟩ := ih (s := { s with env := env }) h onlyNext
    refine ⟨env', ?_, (run_succ hstep k).trans hrun⟩
    rw [hagenda', hagenda, List.drop_tail]

/-- Settles O56: a STEP of a parked machine is a jump to itself, and the other events do not touch memory, PC or the
latch. -/
theorem parkedMachineStaysParked : Obligations.ParkedMachineStaysParked := by
  refine fun s parked => ⟨fun k only => ?_, fun e t h noReset noLoad => ?_⟩
  · obtain ⟨env, hagenda, hrun⟩ := parked.run k only
    exact ⟨_, hrun, rfl, parked, hagenda⟩
  · cases e with
    | reset font => exact absurd rfl (noReset font)
    | load image => exact absurd rfl (noLoad image)
    | step rnd =>
      cases (parked.stepEvent (some rnd)).symm.trans h
      exact ⟨parked, State.keepsAllBut_of_eq fun p hp => by cases p <;> simp_all⟩
    | tick => cases h; exact ⟨parked, (keepsAllBut_tickEvent s).mono (by simp)⟩
    | setKey k b => cases h; exact ⟨parked, (keepsAllBut_setKeyEvent s k b).mono (by simp)⟩
    | ackFrame => cases h; exact ⟨parked, (keepsAllBut_ackFrameEvent s).mono (by simp)⟩

end Sys2Proof.Machine
